-- ==== Sys2Proof/Word.lean ====
section
/-! DEFINITION. The values the spec computes with: bytes, byte sequences and the 16- and 32-bit words (00_scope.md R18, R19). -/

namespace Sys2Proof

/-- A `u8` (R19). -/
abbrev Byte := BitVec 8

/-- A finite sequence of bytes, first byte first (R19). -/
abbrev Bytes := List Byte

/-- A `u16`: a frame type or a length field (R12). -/
abbrev Half := BitVec 16

/-- A `u32`: a command word, a CRC or an `RVAL` (R12, R39, R40). -/
abbrev Word := BitVec 32

/-- The delimiter, the byte `0x00` that ends a packet on the wire (R26). -/
abbrev delimiter : Byte := 0x00#8

end Sys2Proof
end

