-- ==== Sys2Proof/Config.lean ====
section
/-! DEFINITION. The fixed sizes of the wire format (00_scope.md R13), the build parameters (R14 to R16), and the one free value
of the configuration, `READ_MAX`. -/

namespace Sys2Proof.Config

/-- `MAX_PAYLOAD` (R12, R13). -/
def maxPayload : Nat := 65535

/-- `HDR_LEN`: type (2) and length (2) (R13). -/
def hdrLen : Nat := 4

/-- `CRC_LEN`: the 32-bit trailer (R13). -/
def crcLen : Nat := 4

/-- `MIN_RAW`: header and trailer around an empty body (R13). -/
def minRaw : Nat := 8

/-- `MAX_RAW` (R13). -/
def maxRaw : Nat := 65543

/-- `MAX_WIRE`: the COBS bound on `MAX_RAW`, and the terminator (R13). -/
def maxWire : Nat := 65803

/-- `READ_MAX - 1` of the build. OPEN in the spec (R14, D6): a free value, so it has no body. DESIGN CHOICE, log entry 2; safe. -/
opaque readMaxPred : Nat

/-- `READ_MAX`, "an integer of at least 1" (R14). -/
def readMax : Nat := readMaxPred + 1

end Sys2Proof.Config

namespace Sys2Proof

/-- The build parameters, fixed for a model instance and written by no command (R41). `none` is the spec's `INF`. -/
structure Params where
  /-- `READ_MAX`: the most bytes one transport read may return (R14). -/
  readMax : Nat
  /-- `RX_CAP`: the capacity of the receive buffer (R15). -/
  rxCap : Option Nat
  /-- `DIN_MAX`: the greatest length of a command's data operand (R16). -/
  dinMax : Option Nat
  deriving DecidableEq, Repr

/-- The build at reset: `READ_MAX` left free, `RX_CAP` and `DIN_MAX` at the spec's default `INF` (R14 to R16). -/
def Params.default : Params := { readMax := Config.readMax, rxCap := none, dinMax := none }

/-- `|DIN| <= DIN_MAX`, the bound of the first check of R79. -/
def Params.dinFits (p : Params) (din : Bytes) : Bool :=
  match p.dinMax with
  | none => true
  | some n => decide (din.length ≤ n)

end Sys2Proof
end

