-- ==== Sys2Proof/Syntax.lean ====
section
/-! DEFINITION. The command set: one constructor per row of spec/opcode_table.json, the command transaction that carries a
command, and the frame value (30_encoding.md R70, R77; 41_frame_encoder.md R120). -/

namespace Sys2Proof

/-- A command of the FrameSerial core with its operands (R76, R77). The data operand DIN is an operand of the command (log
entry 3); EXTRACT and READ_FRAME have none, since their DIN must be empty. -/
inductive Instr where
  /-- `CRC32 <bytes>` (R107). -/
  | crc32 (din : Bytes)
  /-- `ENCODE type=<u16>, <bytes>` (R127). -/
  | encode (type : Half) (din : Bytes)
  /-- `DECODE <bytes>` (R150). -/
  | decode (din : Bytes)
  /-- `SEND type=<u16>, <bytes>` (R183). -/
  | send (type : Half) (din : Bytes)
  /-- `EXTRACT fetch=<0|1>` (R172). -/
  | extract (fetch : Bool)
  /-- `READ_FRAME` (R180). -/
  | readFrame
  deriving DecidableEq, Repr

/-- A command transaction: the command word and the data operand (R39, R70). -/
structure Transaction where
  cmd : Word
  din : Bytes
  deriving DecidableEq, Repr

/-- A frame: a type tag and opaque data (R120). It is a frame in the spec's sense when `Frame.wellFormed`. -/
structure Frame where
  type : Half
  data : Bytes
  deriving DecidableEq, Repr

end Sys2Proof
end

