-- ==== Sys2Proof/WellFormed.lean ====
section
/-! DEFINITION. Well-formedness of commands, frames and build parameters, as Bool checks. -/

namespace Sys2Proof

/-- A command is well formed for a build when its data operand fits `DIN_MAX` (R76, R79). Every type, every fetch flag and
every byte is allowed; a payload over 65535 bytes is legal and fails later (R79). -/
def Instr.wellFormed (p : Params) (i : Instr) : Bool :=
  match i with
  | .crc32 din => p.dinFits din
  | .encode _ din => p.dinFits din
  | .decode din => p.dinFits din
  | .send _ din => p.dinFits din
  | .extract _ => true
  | .readFrame => true

/-- A pair is a frame when its data has at most 65535 bytes (R12, R120). -/
def Frame.wellFormed (f : Frame) : Bool := decide (f.data.length ≤ Config.maxPayload)

/-- The laws on the build parameters: `READ_MAX >= 1` (R14); `DIN_MAX` is `INF` or at least `MAX_WIRE` (R16). -/
def Params.wellFormed (p : Params) : Bool :=
  decide (1 ≤ p.readMax) &&
    match p.dinMax with
    | none => true
    | some n => decide (Config.maxWire ≤ n)

end Sys2Proof
end

