-- ==== Sys2Proof/Decode.lean ====
section
/-! DEFINITION. The command decoder, total on every transaction and rejecting by name, and after it the encoder
(30_encoding.md R71 to R80). -/

namespace Sys2Proof

/-! ## The fields of the command word (R71) -/

/-- `OPC = CMD[7:0]` (R72). -/
def opcField (cmd : Word) : BitVec 8 := cmd.extractLsb' 0 8

/-- `F = CMD[8]` (R73). -/
def fetchField (cmd : Word) : Bool := cmd.getLsbD 8

/-- `RSV = CMD[15:9]` (R74). -/
def rsvField (cmd : Word) : BitVec 7 := cmd.extractLsb' 9 7

/-- `TYPE = CMD[31:16]` (R75). -/
def typeField (cmd : Word) : Half := cmd.extractLsb' 16 16

/-! ## The opcode map (R77) -/

/-- The operations of the opcode map (R77). -/
inductive Opcode where
  | crc32 | encode | decode | send | extract | readFrame
  deriving DecidableEq, Repr

/-- The operation an `OPC` selects; `none` for the reserved codes (R72, R77). -/
def Opcode.ofCode (c : BitVec 8) : Option Opcode :=
  if c = 0x01#8 then some .crc32
  else if c = 0x02#8 then some .encode
  else if c = 0x03#8 then some .decode
  else if c = 0x04#8 then some .send
  else if c = 0x05#8 then some .extract
  else if c = 0x06#8 then some .readFrame
  else none

/-- The `OPC` of an operation (R77). -/
def Opcode.code (o : Opcode) : BitVec 8 :=
  match o with
  | .crc32 => 0x01#8
  | .encode => 0x02#8
  | .decode => 0x03#8
  | .send => 0x04#8
  | .extract => 0x05#8
  | .readFrame => 0x06#8

/-- `F = 1` is allowed for EXTRACT only (R73). -/
def Opcode.takesFetch (o : Opcode) : Bool :=
  match o with
  | .extract => true
  | .crc32 | .encode | .decode | .send | .readFrame => false

/-- `TYPE` is a field of ENCODE and SEND only (R75). -/
def Opcode.takesType (o : Opcode) : Bool :=
  match o with
  | .encode | .send => true
  | .crc32 | .decode | .extract | .readFrame => false

/-- `DIN` must be empty for EXTRACT and READ_FRAME (R76). -/
def Opcode.takesDin (o : Opcode) : Bool :=
  match o with
  | .crc32 | .encode | .decode | .send => true
  | .extract | .readFrame => false

/-- The command of an operation with the transaction's operands. -/
def Opcode.instr (o : Opcode) (tx : Transaction) : Instr :=
  match o with
  | .crc32 => .crc32 tx.din
  | .encode => .encode (typeField tx.cmd) tx.din
  | .decode => .decode tx.din
  | .send => .send (typeField tx.cmd) tx.din
  | .extract => .extract (fetchField tx.cmd)
  | .readFrame => .readFrame

/-! ## The decoder (R79) -/

/-- Why a transaction is illegal, one name per check of R79. The engine reports none of them: every one is the status
ILLEGAL_COMMAND (R80). -/
inductive Illegal where
  /-- `|DIN| > DIN_MAX`. -/
  | dinTooLong
  /-- `OPC` is 0x00 or 0x07 to 0xFF. -/
  | reservedOpcode (code : BitVec 8)
  /-- `RSV` is not 0. -/
  | reservedBits
  /-- `F = 1` outside EXTRACT. -/
  | fetchOutsideExtract
  /-- `TYPE` is not 0 outside ENCODE and SEND. -/
  | typeOutsideEncodeSend
  /-- `DIN` is not empty for EXTRACT or READ_FRAME. -/
  | dinPresent
  deriving DecidableEq, Repr

/-- What the decoder answers: a command, or the check of R79 that failed. -/
inductive Decoded where
  | command (i : Instr)
  | illegal (why : Illegal)
  deriving DecidableEq, Repr

/-- The decoder: the checks of R79 in its order, then the operands. -/
def decode (p : Params) (tx : Transaction) : Decoded :=
  if p.dinFits tx.din = false then .illegal .dinTooLong
  else
    match Opcode.ofCode (opcField tx.cmd) with
    | none => .illegal (.reservedOpcode (opcField tx.cmd))
    | some o =>
      if rsvField tx.cmd ≠ 0 then .illegal .reservedBits
      else if fetchField tx.cmd = true ∧ o.takesFetch = false then .illegal .fetchOutsideExtract
      else if typeField tx.cmd ≠ 0 ∧ o.takesType = false then .illegal .typeOutsideEncodeSend
      else if tx.din ≠ [] ∧ o.takesDin = false then .illegal .dinPresent
      else .command (o.instr tx)

/-- `legal(CMD, DIN)` as R79 writes it, on numbers. -/
def legal (p : Params) (tx : Transaction) : Bool :=
  let opc := tx.cmd.toNat % 256
  let rsv := tx.cmd.toNat / 512 % 128
  let f := tx.cmd.toNat / 256 % 2
  let ty := tx.cmd.toNat / 65536
  if (match p.dinMax with | none => false | some n => decide (tx.din.length > n)) then false
  else if opc < 1 ∨ opc > 6 then false
  else if rsv ≠ 0 then false
  else if f = 1 ∧ opc ≠ 5 then false
  else if ty ≠ 0 ∧ ¬(opc = 2 ∨ opc = 4) then false
  else if tx.din.length ≠ 0 ∧ (opc = 5 ∨ opc = 6) then false
  else true

/-! ## Match and mask (R78) -/

/-- A row of R78's table: an operation with its match and mask. -/
structure CmdRow where
  op : Opcode
  pattern : Word
  mask : Word
  deriving DecidableEq, Repr

/-- The table of R78. -/
def cmdRows : List CmdRow :=
  [ ⟨.crc32, 0x00000001#32, 0xFFFFFFFF#32⟩
  , ⟨.encode, 0x00000002#32, 0x0000FFFF#32⟩
  , ⟨.decode, 0x00000003#32, 0xFFFFFFFF#32⟩
  , ⟨.send, 0x00000004#32, 0x0000FFFF#32⟩
  , ⟨.extract, 0x00000005#32, 0xFFFFFEFF#32⟩
  , ⟨.readFrame, 0x00000006#32, 0xFFFFFFFF#32⟩ ]

/-- `(CMD & mask) = match` (R78). -/
def CmdRow.hits (r : CmdRow) (cmd : Word) : Bool := cmd &&& r.mask == r.pattern

/-! ## The encoder (R71, R77) -/

/-- The command word with the given fields and `RSV = 0`: TYPE 31:16, RSV 15:9, F 8, OPC 7:0 (R71). -/
def cmdWord (type : Half) (fetch : Bool) (opc : BitVec 8) : Word :=
  (type.zeroExtend 32 <<< 16) ||| ((BitVec.ofBool fetch).zeroExtend 32 <<< 8) ||| opc.zeroExtend 32

/-- The transaction that carries a command (R71, R77). -/
def encode (i : Instr) : Transaction :=
  match i with
  | .crc32 din => ⟨cmdWord 0 false 0x01#8, din⟩
  | .encode type din => ⟨cmdWord type false 0x02#8, din⟩
  | .decode din => ⟨cmdWord 0 false 0x03#8, din⟩
  | .send type din => ⟨cmdWord type false 0x04#8, din⟩
  | .extract fetch => ⟨cmdWord 0 fetch 0x05#8, []⟩
  | .readFrame => ⟨cmdWord 0 false 0x06#8, []⟩

/-! ## The opcode table's numbering -/

/-- The transaction of a table word: the low `nbits` bits of `w` as CMD, and an empty DIN, since the table gives DIN no bits
(log entry 3). CMD is a value with no byte order (R53). `none` when the word does not fit CMD's 32 bits. -/
def tableTransaction (nbits w : Nat) : Option Transaction :=
  if w % 2 ^ nbits < 2 ^ 32 then some ⟨BitVec.ofNat 32 (w % 2 ^ nbits), []⟩ else none

/-- What the decoder reads from a word of spec/opcode_table.json, in the build of reset. -/
def decodeTableWord (nbits w : Nat) : Option Instr :=
  match tableTransaction nbits w with
  | none => none
  | some tx =>
    match decode Params.default tx with
    | .command i => some i
    | .illegal _ => none

end Sys2Proof
end

