-- ==== Sys2Proof/Machine/State.lean ====
section
/-! DEFINITION. The state of the machine as plain data (10_state.md), the values that cross its interfaces, the reasons a step
can stop, and the reset state (R46). -/

namespace Sys2Proof.Machine

/-- The reassembler FSM's control state (R30, R31). -/
inductive Phase where
  /-- No command is in progress. -/
  | idle
  /-- An EXTRACT with `F = 1` or a READ_FRAME waits for its transport read. -/
  | fetchWait
  deriving DecidableEq, Repr

/-- The command waiting for a transport answer (R30, R32). -/
inductive Pend where
  | none | extract | readFrame
  deriving DecidableEq, Repr

/-- The status codes of R200; the codes 0x08 to 0xFF, never produced, have no constructor. -/
inductive Status where
  | ok | absent | invalidLength | decodeError | invalidCrc | transportError | illegalCommand | rxOverflow
  deriving DecidableEq, Repr

/-- A completion record: `STATUS`, `RVAL`, `DOUT` (R40, R82). -/
structure Completion where
  status : Status
  rval : Word
  dout : Bytes
  deriving DecidableEq, Repr

/-- The transport's answer to a read (R23, R64). A read that is never answered has no event. -/
inductive ReadAnswer where
  /-- `CHUNK(c)`. -/
  | chunk (c : Bytes)
  /-- `IOERR`. -/
  | ioerr
  deriving DecidableEq, Repr

/-- The transport's answer to a write (R23, R65). -/
inductive WriteAnswer where
  /-- `WOK`: all bytes were taken. -/
  | wok
  /-- `WERR(k)`: the write failed after the first `k` bytes were taken. -/
  | werr (k : Nat)
  deriving DecidableEq, Repr

/-- What can reach the engine from outside (R28, R39, R230, R231). The model's own type; log entry 1. -/
inductive Event where
  /-- The host presents a command transaction (R39). -/
  | command (tx : Transaction)
  /-- The transport answers the pending read (R64). With no read pending it answers an abandoned one (R231, log entry 10). -/
  | answer (a : ReadAnswer)
  /-- The transport answers a read that a reset abandoned (R231, log entry 10). -/
  | lateAnswer (a : ReadAnswer)
  /-- Reset (R230). -/
  | reset
  deriving DecidableEq, Repr

/-- What a run shows (R29). -/
inductive Obs where
  /-- A completion record sent to the host. -/
  | completion (c : Completion)
  /-- A transport write of `w`, with its answer. -/
  | write (w : Bytes) (a : WriteAnswer)
  /-- A transport read of at most `m` bytes is issued. -/
  | readIssued (m : Nat)
  /-- The pending transport read is answered. -/
  | readAnswered (a : ReadAnswer)
  deriving DecidableEq, Repr

/-- Why the machine stops with a fault. The block itself has no faults (R206): both reasons lie outside the spec's contract. -/
inductive Fault where
  /-- Raised by the answer step when a chunk is longer than `READ_MAX`: not an answer the transport can give (R64). Safe: the
  model stops where the spec has no run (log entry 7). -/
  | answerOverReadMax
  /-- Raised by the answer step when a packet is found and `PEND = NONE` in `FETCH_WAIT`, which R32 rules out; no run from reset
  reaches it. Safe (log entry 9). -/
  | answerWithoutPend
  deriving DecidableEq, Repr

/-- Why the machine gives a step no meaning. -/
inductive Refusal where
  /-- Raised by an arm of `exec` whose instruction has no meaning yet; no arm raises it now. Safe. -/
  | notModelled (mnemonic : String)
  /-- Raised for a command that reaches the engine in `FETCH_WAIT`: "A model in which a command reaches the engine during
  `FETCH_WAIT` has left the source's contract" (R235). Safe: the model stops where the spec has no run (log entry 8). -/
  | commandDuringFetch
  deriving DecidableEq, Repr

/-- The machine's state. `rxbuf`, `phase`, `pend` and `ovf` are the engine's whole state (R30); `params` are the build
parameters (R14 to R16); the rest is the model's own (log entries 1, 4, 5, 6). -/
structure State where
  /-- `READ_MAX`, `RX_CAP`, `DIN_MAX`; written by no step (R41). -/
  params : Params
  /-- `RXBUF` (R33). -/
  rxbuf : Bytes
  /-- `PHASE` (R31). -/
  phase : Phase
  /-- `PEND` (R32). -/
  pend : Pend
  /-- `OVF` (R34). -/
  ovf : Bool
  /-- The model's own: the events still to reach the engine, the next one first (log entry 1). -/
  inputs : List Event
  /-- The model's own: the transport's answers to the next writes (R65, log entry 4). -/
  writeDraws : List WriteAnswer
  /-- The model's own: the transport's answer to every write after those (R65, log entry 4). -/
  writeDefault : WriteAnswer
  /-- The model's own: what the run has shown, oldest first (R29, log entry 5). -/
  trace : List Obs
  /-- The model's own history: `C` of R190, every byte appended to `RXBUF` since the last reset (log entry 6). -/
  fed : Bytes
  /-- The model's own history: `p1, ..., pk` of R190, the packets removed from `RXBUF` since the last reset (log entry 6). -/
  taken : List Bytes
  deriving DecidableEq, Repr

/-- The machine right after reset or power-on (R46, R233), with the default build and nothing arriving from outside. -/
def State.reset : State :=
  { params := Params.default
    rxbuf := []
    phase := .idle
    pend := .none
    ovf := false
    inputs := []
    writeDraws := []
    writeDefault := .wok
    trace := []
    fed := []
    taken := [] }

/-- The outcome of a step or of a meaning. -/
abbrev Result := Host.Outcome State Fault Refusal

end Sys2Proof.Machine
end

