-- ==== Sys2Proof/Machine/Flags.lean ====
section
/-! DEFINITION. The one flag, `OVF` (10_state.md R34, R38), and the test that sets it (43_stream_reassembler.md R175, R177). -/

namespace Sys2Proof.Machine

/-- A chunk of `n` bytes would grow a buffer of `buffered` bytes past `RX_CAP` (R175, R177). -/
def overflows (p : Params) (buffered n : Nat) : Bool :=
  match p.rxCap with
  | none => false
  | some cap => decide (buffered + n > cap)

/-- `OVF <- 1` (R177). -/
def setOvf (s : State) : State := { s with ovf := true }

end Sys2Proof.Machine
end

