-- ==== Sys2Proof/Machine/Operands.lean ====
section
/-! DEFINITION. Operand forms: the little-endian helpers (00_scope.md R20), the delimiter search (R21), the status codes
(60_exceptions.md R200), and the operand checks the commands share. -/

namespace Sys2Proof.Machine

/-- `le16` (R20). -/
def le16 (v : Half) : Bytes := [v.extractLsb' 0 8, v.extractLsb' 8 8]

/-- `le32` (R20). -/
def le32 (v : Word) : Bytes := [v.extractLsb' 0 8, v.extractLsb' 8 8, v.extractLsb' 16 8, v.extractLsb' 24 8]

/-- `rd_le16(s, i)`, for `i + 2 <= |s|` (R20). -/
def rdLe16 (s : Bytes) (i : Nat) : Half :=
  (s.getD i 0).zeroExtend 16 ||| ((s.getD (i + 1) 0).zeroExtend 16 <<< 8)

/-- `rd_le32(s, i)`, for `i + 4 <= |s|` (R20). -/
def rdLe32 (s : Bytes) (i : Nat) : Word :=
  (s.getD i 0).zeroExtend 32 ||| ((s.getD (i + 1) 0).zeroExtend 32 <<< 8)
    ||| ((s.getD (i + 2) 0).zeroExtend 32 <<< 16) ||| ((s.getD (i + 3) 0).zeroExtend 32 <<< 24)

/-- `find0(s)`: the least index of a `0x00` (R21). -/
def find0 : Bytes → Option Nat
  | [] => none
  | b :: bs => if b = delimiter then some 0 else (find0 bs).map (· + 1)

/-- The numeric code of a status (R200). -/
def statusCode (st : Status) : BitVec 8 :=
  match st with
  | .ok => 0x00#8
  | .absent => 0x01#8
  | .invalidLength => 0x02#8
  | .decodeError => 0x03#8
  | .invalidCrc => 0x04#8
  | .transportError => 0x05#8
  | .illegalCommand => 0x06#8
  | .rxOverflow => 0x07#8

/-- A payload of ENCODE or SEND that is not a frame's data: `|DIN| > 65535` (R128). -/
def payloadTooLong (din : Bytes) : Bool := decide (din.length > Config.maxPayload)

/-- `zext_32(type)`, the `RVAL` of a frame (R83). -/
def typeRval (t : Half) : Word := t.zeroExtend 32

/-- A write's free draw `k` folded into the law `0 <= k <= |w|` of R65 (log entry 4). -/
def writeAnswerWithin (w : Bytes) (a : WriteAnswer) : WriteAnswer :=
  match a with
  | .wok => .wok
  | .werr k => .werr (min k w.length)

end Sys2Proof.Machine
end

