-- ==== Sys2Proof/Machine/Cobs.lean ====
section
/-! DEFINITION. COBS encoding and decoding (41_frame_encoder.md R122, 42_frame_decoder.md R140). -/

namespace Sys2Proof.Machine

/-- The three error kinds of the frame decoder (R151). -/
inductive ErrorKind where
  | invalidLength | decodeError | invalidCrc
  deriving DecidableEq, Repr

/-- The loop of R122. `block` is the open block `x[start..i)`, `finalZero` is `final_zero`, and the last argument is what is
left of `x`. -/
def cobsFrom (block : Bytes) (finalZero : Bool) : Bytes → Bytes
  | [] => if block.length ≠ 0 ∨ finalZero = true then BitVec.ofNat 8 (block.length + 1) :: block else []
  | b :: x =>
    if b = delimiter then (BitVec.ofNat 8 (block.length + 1) :: block) ++ cobsFrom [] true x
    else if block.length = 253 then (0xFF#8 :: (block ++ [b])) ++ cobsFrom [] false x
    else cobsFrom (block ++ [b]) finalZero x

/-- `cobs_encode(x)` (R122). -/
def cobsEncode (x : Bytes) : Bytes := cobsFrom [] true x

/-- The loop of R140 from a code byte on, at most `n` blocks; the answer is the bytes from here to the end. The causes of R141
stand in the loop's order: Z1, Z2, T. -/
def cobsBlocks : Nat → Bytes → Except ErrorKind Bytes
  | _, [] => .ok []
  | 0, _ :: _ => .error .decodeError
  | n + 1, c :: rest =>
    if c = delimiter then .error .decodeError
    else if delimiter ∈ rest.take (c.toNat - 1) then .error .decodeError
    else if rest.length < c.toNat - 1 then .error .decodeError
    else if rest.length = c.toNat - 1 then .ok rest
    else
      match cobsBlocks n (rest.drop (c.toNat - 1)) with
      | .error k => .error k
      | .ok out =>
        .ok (rest.take (c.toNat - 1) ++ ((if c.toNat < 255 then [delimiter] else []) ++ out))

/-- `cobs_decode(y)` (R140). Every block has a code byte, so `|y|` blocks are enough. -/
def cobsDecode (y : Bytes) : Except ErrorKind Bytes := cobsBlocks y.length y

end Sys2Proof.Machine
end

