-- ==== Sys2Proof/Machine/Crc.lean ====
section
/-! DEFINITION. The CRC-32 engine (40_crc32_engine.md). -/

namespace Sys2Proof.Machine

/-- The reflected polynomial (R100). -/
def crcPoly : Word := 0xEDB88320#32

/-- The initial register value (R100). -/
def crcInit : Word := 0xFFFFFFFF#32

/-- The final exclusive-or (R100). -/
def crcFinal : Word := 0xFFFFFFFF#32

/-- One turn of the loop of R101. -/
def crcBit (s : Word) : Word :=
  if s.getLsbD 0 then (s >>> 1) ^^^ crcPoly else s >>> 1

/-- `n` turns of the loop of R101. -/
def crcBits : Nat → Word → Word
  | 0, s => s
  | n + 1, s => crcBits n (crcBit s)

/-- `crc_byte(s, b)` (R101). -/
def crcByte (s : Word) (b : Byte) : Word := crcBits 8 (s ^^^ b.zeroExtend 32)

/-- `crc_run(s, m)` (R102). -/
def crcRun : Word → Bytes → Word
  | s, [] => s
  | s, b :: m => crcRun (crcByte s b) m

/-- `crc32(m)` (R102). -/
def crc32 (m : Bytes) : Word := crcRun crcInit m ^^^ crcFinal

/-- The table entry `T[i]` (R103). -/
def crcTable (i : Byte) : Word := crcByte 0x00000000#32 i

/-- The one-byte update in its table form (R103). -/
def crcByteByTable (s : Word) (b : Byte) : Word :=
  crcTable ((s ^^^ b.zeroExtend 32).extractLsb' 0 8) ^^^ (s >>> 8)

end Sys2Proof.Machine
end

