-- ==== Sys2Proof/Machine/FrameCodec.lean ====
section
/-! DEFINITION. The frame encoder and the frame decoder (41_frame_encoder.md R121, R126; 42_frame_decoder.md R145). -/

namespace Sys2Proof.Machine

/-- `hdr(F)`: type and length, little-endian (R121). -/
def hdr (f : Frame) : Bytes := le16 f.type ++ le16 (BitVec.ofNat 16 f.data.length)

/-- `raw(F)`: header, body, CRC trailer (R121). -/
def raw (f : Frame) : Bytes := (hdr f ++ f.data) ++ le32 (crc32 (hdr f ++ f.data))

/-- `wire(F)` (R126). -/
def wire (f : Frame) : Bytes := cobsEncode (raw f) ++ [delimiter]

/-- Removes one trailing terminator, if there is one (R144). -/
def stripTerminator (p : Bytes) : Bytes :=
  if p.getLast? = some delimiter then p.dropLast else p

/-- The checks of R145 on a destuffed block `r`: minimum size (R146), CRC (R147), length field (R148), success (R149). -/
def checkRaw (r : Bytes) : Except ErrorKind Frame :=
  if r.length < Config.minRaw then .error .invalidLength
  else if crc32 (r.take (r.length - Config.crcLen)) ≠ rdLe32 r (r.length - Config.crcLen) then .error .invalidCrc
  else if (rdLe16 r 2).toNat ≠ r.length - Config.minRaw then .error .invalidLength
  else .ok ⟨rdLe16 r 0, (r.drop Config.hdrLen).take (rdLe16 r 2).toNat⟩

/-- `decode_frame(p)` (R145). -/
def decodeFrame (p : Bytes) : Except ErrorKind Frame :=
  if p = [] then .error .invalidLength
  else
    match cobsDecode (stripTerminator p) with
    | .error _ => .error .decodeError
    | .ok r => checkRaw r

end Sys2Proof.Machine
end

