-- ==== Sys2Proof/Machine/Ops.lean ====
section
/-! DEFINITION. The named operations over the state: the primitives on `RXBUF` (00_scope.md R22), the transport primitives (R23),
completion and `raise`, which stand where another machine takes an exception (R24, 60_exceptions.md R206), and reset
(70_reset_and_hazards.md R230). -/

namespace Sys2Proof.Machine

/-- Adds one observation to the run (R29). -/
def observe (o : Obs) (s : State) : State := { s with trace := s.trace ++ [o] }

/-- `RxFind()` (R22). -/
def rxFind (s : State) : Option Nat := find0 s.rxbuf

/-- The packet `RxTake(i)` returns: `RXBUF[0..i)` (R22). -/
def rxPacket (i : Nat) (s : State) : Bytes := s.rxbuf.take i

/-- The state `RxTake(i)` leaves: `RXBUF <- RXBUF[i+1..)` (R22); the packet joins the history of R190. -/
def rxTake (i : Nat) (s : State) : State :=
  { s with rxbuf := s.rxbuf.drop (i + 1), taken := s.taken ++ [rxPacket i s] }

/-- `RxAppend(c)`: `RXBUF <- RXBUF ++ c` (R22, R174); the bytes join the history of R190. -/
def rxAppend (c : Bytes) (s : State) : State :=
  { s with rxbuf := s.rxbuf ++ c, fed := s.fed ++ c }

/-- `complete(st, rval, dout)`: a completion record, `PHASE <- IDLE`, `PEND <- NONE` (R24). -/
def complete (st : Status) (rval : Word) (dout : Bytes) (s : State) : State :=
  observe (.completion ⟨st, rval, dout⟩) { s with phase := .idle, pend := .none }

/-- `raise St`: `complete(St, 0, [])` (R24). Every error of the block ends its command this way; there is no trap (R206). -/
def raise (st : Status) (s : State) : State := complete st 0 [] s

/-- The status of a decoding error (R151, R200). -/
def kindStatus (k : ErrorKind) : Status :=
  match k with
  | .invalidLength => .invalidLength
  | .decodeError => .decodeError
  | .invalidCrc => .invalidCrc

/-- `TransportRead(READ_MAX)`, `PEND <- cmd`, `PHASE <- FETCH_WAIT`: the issue of a fetch (R174). -/
def beginFetch (cmd : Pend) (s : State) : State :=
  observe (.readIssued s.params.readMax) { s with phase := .fetchWait, pend := cmd }

/-- The draw that answers the next write: the first of the list, and the default when the list is used up (R65, log entry 4). -/
def nextWriteDraw (s : State) : WriteAnswer :=
  match s.writeDraws with
  | [] => s.writeDefault
  | a :: _ => a

/-- The transport's answer to a write of `w` made now (R65, log entry 4). -/
def writeAnswer (w : Bytes) (s : State) : WriteAnswer := writeAnswerWithin w (nextWriteDraw s)

/-- The state after `TransportWrite(w)`: one write is observed and its draw is used (R23, R59). -/
def transportWrite (w : Bytes) (s : State) : State :=
  observe (.write w (writeAnswer w s)) { s with writeDraws := s.writeDraws.tail }

/-- A command is accepted only when `PHASE = IDLE` (R31, R39); in `FETCH_WAIT` it is refused (R235, log entry 8). -/
def whenIdle (s : State) (r : Result) : Result :=
  match s.phase with
  | .idle => r
  | .fetchWait => .refused .commandDuringFetch

/-- Reset: every state element at its reset value, no completion, no write (R46, R230). A pending command is aborted (R231).
The build, the inputs still to come, the draws and the observations made so far stay; the history of R190 starts again. -/
def resetEngine (s : State) : State :=
  { s with rxbuf := [], phase := .idle, pend := .none, ovf := false, fed := [], taken := [] }

end Sys2Proof.Machine
end

