-- ==== Sys2Proof/Machine/Codec.lean ====
section
/-! DEFINITION. The codec commands CRC32, ENCODE and DECODE: no state element read or written, no transport access (R47). -/

namespace Sys2Proof.Machine

/-- CRC32 (R107). -/
def execCrc32 (din : Bytes) (s : State) : Result :=
  whenIdle s (.next (complete .ok (crc32 din) [] s))

/-- ENCODE (R127, R128). -/
def execEncode (type : Half) (din : Bytes) (s : State) : Result :=
  whenIdle s <|
    if payloadTooLong din then .next (raise .invalidLength s)
    else .next (complete .ok 0 (wire ⟨type, din⟩) s)

/-- DECODE (R150). -/
def execDecode (din : Bytes) (s : State) : Result :=
  whenIdle s <|
    match decodeFrame din with
    | .error k => .next (raise (kindStatus k) s)
    | .ok f => .next (complete .ok (typeRval f.type) f.data s)

end Sys2Proof.Machine
end

