-- ==== Sys2Proof/Machine/Reassembler.lean ====
section
/-! DEFINITION. The stream reassembler: SEND, EXTRACT, READ_FRAME, and the answer step that ends a fetch
(43_stream_reassembler.md). -/

namespace Sys2Proof.Machine

/-- SEND: at most one write, no state element touched (R183 to R185). -/
def execSend (type : Half) (din : Bytes) (s : State) : Result :=
  whenIdle s <|
    if payloadTooLong din then .next (raise .invalidLength s)
    else
      match writeAnswer (wire ⟨type, din⟩) s with
      | .werr _ => .next (raise .transportError (transportWrite (wire ⟨type, din⟩) s))
      | .wok => .next (complete .ok 0 [] (transportWrite (wire ⟨type, din⟩) s))

/-- `complete(OK, 0, p)` of a packet EXTRACT has taken (R172, R175). -/
def finishExtract (p : Bytes) (s : State) : State := complete .ok 0 p s

/-- `finish_read_frame(p)`: a packet that does not decode is dropped, with ABSENT (R180, R181). -/
def finishReadFrame (p : Bytes) (s : State) : State :=
  match decodeFrame p with
  | .error _ => raise .absent s
  | .ok f => complete .ok (typeRval f.type) f.data s

/-- EXTRACT, the issue step (R172 to R174). -/
def execExtract (fetch : Bool) (s : State) : Result :=
  whenIdle s <|
    match rxFind s with
    | some i => .next (finishExtract (rxPacket i s) (rxTake i s))
    | none => if fetch then .next (beginFetch .extract s) else .next (raise .absent s)

/-- READ_FRAME, the issue step (R180). -/
def execReadFrame (s : State) : Result :=
  whenIdle s <|
    match rxFind s with
    | some i => .next (finishReadFrame (rxPacket i s) (rxTake i s))
    | none => .next (beginFetch .readFrame s)

/-- The completion of the waiting command `k` with the packet that ends at the delimiter `i` (R175). -/
def finishFetch (k : Pend) (i : Nat) (s : State) : Result :=
  match k with
  | .extract => .next (finishExtract (rxPacket i s) (rxTake i s))
  | .readFrame => .next (finishReadFrame (rxPacket i s) (rxTake i s))
  | .none => .fault .answerWithoutPend

/-- `CHUNK(c)` in the answer step: overflow (R177), else append (R174) and search once more (R175, R176). -/
def takeChunk (k : Pend) (c : Bytes) (s : State) : Result :=
  if overflows s.params s.rxbuf.length c.length then .next (raise .rxOverflow (setOvf s))
  else
    match rxFind (rxAppend c s) with
    | none => .next (raise .absent (rxAppend c s))
    | some i => finishFetch k i (rxAppend c s)

/-- The answer step, in `FETCH_WAIT` (R175); `IOERR` is R178. A chunk over `READ_MAX` is no answer of the transport (R64). -/
def answerStep (a : ReadAnswer) (s : State) : Result :=
  match a with
  | .ioerr => .next (raise .transportError (observe (.readAnswered .ioerr) s))
  | .chunk c =>
    if c.length > s.params.readMax then .fault .answerOverReadMax
    else takeChunk s.pend c (observe (.readAnswered (.chunk c)) { s with pend := .none })

end Sys2Proof.Machine
end

