-- ==== Sys2Proof/Machine/Dispatch.lean ====
section
/-! DEFINITION. One arm per command (30_encoding.md R77). -/

namespace Sys2Proof.Machine

def exec (i : Instr) (s : State) : Host.Outcome State Fault Refusal :=
  match i with
  | .crc32 din => Sys2Proof.Machine.execCrc32 din s
  | .encode type din => Sys2Proof.Machine.execEncode type din s
  | .decode din => Sys2Proof.Machine.execDecode din s
  | .send type din => Sys2Proof.Machine.execSend type din s
  | .extract fetch => Sys2Proof.Machine.execExtract fetch s
  | .readFrame => Sys2Proof.Machine.execReadFrame s

end Sys2Proof.Machine
end

