-- ==== Sys2Proof/Machine/Events.lean ====
section
/-! DEFINITION. What reaches the engine from outside, one event a step (00_scope.md R28; 43_stream_reassembler.md R189). -/

namespace Sys2Proof.Machine

/-- A command transaction: accepted in `IDLE` only, then legality before anything else (R79), then the command. -/
def issueCommand (tx : Transaction) (s : State) : Result :=
  whenIdle s <|
    match decode s.params tx with
    | .illegal _ => .next (raise .illegalCommand s)
    | .command i => exec i s

/-- The transport's answer: taken in `FETCH_WAIT` (R175); with no read pending it is an abandoned read's, and is discarded
(R231, log entry 10). -/
def deliverAnswer (a : ReadAnswer) (s : State) : Result :=
  match s.phase with
  | .fetchWait => answerStep a s
  | .idle => .next s

/-- One event of the table R189. -/
def deliver (e : Event) (s : State) : Result :=
  match e with
  | .command tx => issueCommand tx s
  | .answer a => deliverAnswer a s
  | .lateAnswer _ => .next s
  | .reset => .next (resetEngine s)

/-- The next event, if there is one, is taken. With none the engine has no step and the state stays (R189, R210, log entry 15). -/
def takeEvent (s : State) : Result :=
  match s.inputs with
  | [] => .next s
  | e :: rest => deliver e { s with inputs := rest }

/-- The host presents a transaction as the next event. -/
def present (tx : Transaction) (s : State) : State := { s with inputs := .command tx :: s.inputs }

/-- The host presents the command of an opcode-table word as the next event, in `PHASE = IDLE`, the phase in which a command is
accepted (log entry 1). A word that does not fit CMD presents nothing. -/
def presentWord (s : State) (nbits w : Nat) : State :=
  match tableTransaction nbits w with
  | none => s
  | some tx => present tx { s with phase := .idle, pend := .none }

end Sys2Proof.Machine
end

