-- ==== Sys2Proof/Machine/Step.lean ====
section
/-! DEFINITION. The step of the machine: one event (00_scope.md R28). -/

namespace Sys2Proof.Machine

/-- One step (R28, R189). -/
def step (s : State) : Host.Outcome State Fault Refusal := takeEvent s

/-- `s` with the command of an opcode-table word as the very next event. -/
def State.withFetchWord (s : State) (nbits w : Nat) : State := presentWord s nbits w

end Sys2Proof.Machine
end

