-- ==== Sys2Proof/Machine/Assembler.lean ====
section
/-! DEFINITION. The command syntax: its lines, what each stands for, and its text (30_encoding.md R88 to R91). -/

namespace Sys2Proof.Machine

/-- A byte-string operand: `h"..."` or `a"..."` (R89). -/
inductive AsmBytes where
  | hex (bs : Bytes)
  | ascii (cs : List Char)
  deriving DecidableEq, Repr

/-- A line of the command syntax (R88), the pseudo-instructions included (R90). -/
inductive AsmLine where
  | crc32 (b : AsmBytes)
  | encode (type : Nat) (b : AsmBytes)
  | decode (b : AsmBytes)
  | send (type : Nat) (b : AsmBytes)
  /-- `fetch=` is absent in a bare `EXTRACT` (R90). -/
  | extract (fetch : Option Nat)
  | readFrame
  /-- `READ_FRAMES timeout=<T|none>`, a host loop and no command (R90). -/
  | readFrames (timeout : Option Nat)
  deriving DecidableEq, Repr

/-- What a line stands for: a command, or the host loop of R186. -/
inductive Assembled where
  | command (i : Instr)
  | hostLoop (timeout : Option Nat)
  deriving DecidableEq, Repr

/-- "printable ASCII characters other than `"` and `\`" (R89). -/
def asmPrintable (c : Char) : Bool :=
  decide (0x20 ≤ c.toNat ∧ c.toNat ≤ 0x7E ∧ c ≠ '"' ∧ c ≠ '\\')

/-- The operand "becomes `DIN` byte for byte" (R89). -/
def asmBytes (b : AsmBytes) : Option Bytes :=
  match b with
  | .hex bs => some bs
  | .ascii cs => if cs.all asmPrintable then some (cs.map fun c => BitVec.ofNat 8 c.toNat) else none

/-- `<u16>`: "a decimal or `0x` hexadecimal number from 0 to 65535" (R88). -/
def asmType (n : Nat) : Option Half := if n ≤ 65535 then some (BitVec.ofNat 16 n) else none

/-- `fetch=<0|1>`; "`EXTRACT` written without `fetch=` means `EXTRACT fetch=1`" (R88, R90). -/
def asmFetch (f : Option Nat) : Option Bool :=
  match f with
  | none => some true
  | some 0 => some false
  | some 1 => some true
  | some _ => none

/-- What a line stands for (R88, R90); `none` when an operand is out of range. -/
def assembleLine (l : AsmLine) : Option Assembled :=
  match l with
  | .crc32 b => (asmBytes b).map fun d => .command (.crc32 d)
  | .encode t b => (asmType t).bind fun ty => (asmBytes b).map fun d => .command (.encode ty d)
  | .decode b => (asmBytes b).map fun d => .command (.decode d)
  | .send t b => (asmType t).bind fun ty => (asmBytes b).map fun d => .command (.send ty d)
  | .extract f => (asmFetch f).map fun fetch => .command (.extract fetch)
  | .readFrame => some (.command .readFrame)
  | .readFrames t => some (.hostLoop t)

/-! ## The text of a line (log entry 14) -/

/-- The value of a digit in base 10 or 16. -/
def asmDigit (base : Nat) (c : Char) : Option Nat :=
  let v :=
    if 0x30 ≤ c.toNat ∧ c.toNat ≤ 0x39 then c.toNat - 0x30
    else if 0x41 ≤ c.toNat ∧ c.toNat ≤ 0x46 then c.toNat - 0x41 + 10
    else if 0x61 ≤ c.toNat ∧ c.toNat ≤ 0x66 then c.toNat - 0x61 + 10
    else base
  if v < base then some v else none

/-- Reads digits onto `acc`; `none` while no digit has been read. -/
def asmDigits (base : Nat) : Option Nat → List Char → Option Nat × List Char
  | acc, [] => (acc, [])
  | acc, c :: cs =>
    match asmDigit base c with
    | some d => asmDigits base (some (acc.getD 0 * base + d)) cs
    | none => (acc, c :: cs)

/-- A number and the rest of the text: `0x` hexadecimal, or decimal (R88). -/
def asmNumber (cs : List Char) : Option (Nat × List Char) :=
  let r :=
    match cs with
    | '0' :: 'x' :: rest => asmDigits 16 none rest
    | _ => asmDigits 10 none cs
  r.1.map fun n => (n, r.2)

/-- "hex byte pairs separated by spaces" (R89). -/
def asmHexPairs : List Char → Option Bytes
  | [] => some []
  | [a, b] => (asmDigit 16 a).bind fun x => (asmDigit 16 b).map fun y => [BitVec.ofNat 8 (16 * x + y)]
  | a :: b :: sep :: c :: rest =>
    if sep = ' ' then
      (asmDigit 16 a).bind fun x => (asmDigit 16 b).bind fun y =>
        (asmHexPairs (c :: rest)).map fun bs => BitVec.ofNat 8 (16 * x + y) :: bs
    else none
  | _ => none

/-- Drops leading spaces. -/
def asmSkip (cs : List Char) : List Char := cs.dropWhile (· == ' ')

/-- The text up to the closing quote, and the text after it. -/
def asmQuoted (cs : List Char) : Option (List Char × List Char) :=
  match cs.dropWhile (· != '"') with
  | [] => none
  | _ :: tail => some (cs.takeWhile (· != '"'), tail)

/-- A byte-string operand that ends the line (R89). -/
def asmBytesText (cs : List Char) : Option AsmBytes :=
  match cs with
  | 'h' :: '"' :: rest =>
    (asmQuoted rest).bind fun q => if asmSkip q.2 = [] then (asmHexPairs q.1).map .hex else none
  | 'a' :: '"' :: rest =>
    (asmQuoted rest).bind fun q => if asmSkip q.2 = [] then some (.ascii q.1) else none
  | _ => none

/-- The text after a literal. -/
def asmEat (lit cs : List Char) : Option (List Char) :=
  if lit.isPrefixOf cs then some (cs.drop lit.length) else none

/-- `type=<u16>, <bytes>` (R88). -/
def asmTypedBytes (cs : List Char) : Option (Nat × AsmBytes) :=
  (asmEat ['t', 'y', 'p', 'e', '='] cs).bind fun r => (asmNumber r).bind fun n =>
    (asmEat [','] n.2).bind fun r' => (asmBytesText (asmSkip r')).map fun b => (n.1, b)

/-- `fetch=<0|1>`, or nothing (R88, R90). -/
def asmFetchText (cs : List Char) : Option (Option Nat) :=
  if cs = [] then some none
  else
    (asmEat ['f', 'e', 't', 'c', 'h', '='] cs).bind fun r => (asmNumber r).bind fun n =>
      if asmSkip n.2 = [] then some (some n.1) else none

/-- `timeout=<T|none>` (R90). -/
def asmTimeoutText (cs : List Char) : Option (Option Nat) :=
  (asmEat ['t', 'i', 'm', 'e', 'o', 'u', 't', '='] cs).bind fun r =>
    match asmEat ['n', 'o', 'n', 'e'] r with
    | some tail => if asmSkip tail = [] then some none else none
    | none => (asmNumber r).bind fun n => if asmSkip n.2 = [] then some (some n.1) else none

/-- A line of text (R88, R90): the upper-case mnemonic, spaces, the operands. -/
def asmParse (text : List Char) : Option AsmLine :=
  let cs := asmSkip text
  let mnemonic := cs.takeWhile (· != ' ')
  let args := asmSkip (cs.dropWhile (· != ' '))
  if mnemonic = "CRC32".toList then (asmBytesText args).map .crc32
  else if mnemonic = "ENCODE".toList then (asmTypedBytes args).map fun p => .encode p.1 p.2
  else if mnemonic = "DECODE".toList then (asmBytesText args).map .decode
  else if mnemonic = "SEND".toList then (asmTypedBytes args).map fun p => .send p.1 p.2
  else if mnemonic = "EXTRACT".toList then (asmFetchText args).map .extract
  else if mnemonic = "READ_FRAME".toList then if args = [] then some .readFrame else none
  else if mnemonic = "READ_FRAMES".toList then (asmTimeoutText args).map .readFrames
  else none

/-- What a line of text stands for. -/
def assemble (text : List Char) : Option Assembled := (asmParse text).bind assembleLine

end Sys2Proof.Machine
end

