-- ==== Sys2Proof/Machine/ReadFrames.lean ====
section
/-! DEFINITION. READ_FRAMES, the host procedure around READ_FRAME (43_stream_reassembler.md R186 to R188; 30_encoding.md R90). It is
a host program, not a command: each of its steps is a check of its deadline or one step of the machine. -/

namespace Sys2Proof.Machine

/-- Why READ_FRAMES has stopped (R186, R188). -/
inductive HostStop where
  /-- `Expired()` was true at a check. -/
  | timeout
  /-- The consumer stopped asking. -/
  | consumer
  /-- READ_FRAME completed with a status other than OK and ABSENT. -/
  | error (st : Status)
  deriving DecidableEq, Repr

/-- Where READ_FRAMES stands. -/
inductive HostPhase where
  /-- Before the check at the head of the loop. -/
  | checking
  /-- A READ_FRAME is issued and not completed. -/
  | waiting
  /-- A reset has aborted its READ_FRAME, whose completion never comes (R231). DESIGN CHOICE, log entry 20. -/
  | aborted
  | stopped (why : HostStop)
  deriving DecidableEq, Repr

/-- A run of READ_FRAMES over the machine. -/
structure ReadFrames where
  /-- The draws of `Expired()`: `none` for `T = none`; `some n` when the next `n` checks answer false and every later one true.
  "once true it stays true", "eventually true" (R186): every such sequence is some `n` (log entry 11). -/
  expiry : Option Nat
  /-- The consumer: `none` if it never stops asking; `some n` if it takes `n` more frames and stops at the one after (R186, log
  entry 11). -/
  appetite : Option Nat
  /-- The frames yielded so far, oldest first. -/
  yielded : List Frame
  phase : HostPhase
  machine : State
  deriving DecidableEq, Repr

/-- A fresh run of READ_FRAMES on a machine. -/
def readFramesOn (expiry appetite : Option Nat) (m : State) : ReadFrames :=
  { expiry := expiry, appetite := appetite, yielded := [], phase := .checking, machine := m }

/-- The first completion record among some observations. -/
def firstCompletion : List Obs → Option Completion
  | [] => none
  | .completion c :: _ => some c
  | .write _ _ :: os => firstCompletion os
  | .readIssued _ :: os => firstCompletion os
  | .readAnswered _ :: os => firstCompletion os

/-- The completion a step of the machine has sent, if it sent one. -/
def newCompletion (before after : State) : Option Completion :=
  firstCompletion (after.trace.drop before.trace.length)

/-- The frame of a READ_FRAME that completed with OK: `(rv[15:0], d)` (R186). -/
def completionFrame (c : Completion) : Frame := ⟨c.rval.extractLsb' 0 16, c.dout⟩

/-- What the loop does with a completion (R186). -/
def hostTakes (c : Completion) (r : ReadFrames) : ReadFrames :=
  match c.status with
  | .ok =>
    { r with
      yielded := r.yielded ++ [completionFrame c]
      appetite := r.appetite.map (· - 1)
      phase := if r.appetite = some 0 then .stopped .consumer else .checking }
  | .absent => { r with phase := .checking }
  | st => { r with phase := .stopped (.error st) }

/-- Where the procedure stands after a step of the machine without a completion: a fetch that has gone was aborted by a reset
(R231); else its READ_FRAME is still in progress. -/
def hostWaits (before after : State) : HostPhase :=
  match before.phase, after.phase with
  | .fetchWait, .idle => .aborted
  | _, _ => .waiting

/-- The procedure after a step of the machine, with its own READ_FRAME issued or in progress: the completion of that step, if
there is one, is that READ_FRAME's. -/
def hostObserves (r : ReadFrames) (res : Result) : Host.Outcome ReadFrames Fault Refusal :=
  match res with
  | .next m =>
    match newCompletion r.machine m with
    | none => .next { r with machine := m, phase := hostWaits r.machine m }
    | some c => .next (hostTakes c { r with machine := m })
  | .fault e => .fault e
  | .refused e => .refused e

/-- The procedure whose READ_FRAME a reset has aborted: the machine goes on, and whatever it completes is another command's, so
the procedure waits for "its completion" (R186) without end. R186 and R231 do not say what a host does then: DESIGN CHOICE, log
entry 20; unsafe. -/
def hostIgnores (r : ReadFrames) (res : Result) : Host.Outcome ReadFrames Fault Refusal :=
  match res with
  | .next m => .next { r with machine := m }
  | .fault e => .fault e
  | .refused e => .refused e

/-- One step of READ_FRAMES: "checked before every READ_FRAME" (R186). DESIGN CHOICE, log entry 19; unsafe: the loop puts its READ_FRAME
in front of every event still to come, so a reset, or another waiting event, is taken only while a READ_FRAME waits for its answer
and never in `IDLE` between two READ_FRAMEs. R186 and R230 are silent on it. -/
def readFramesStep (r : ReadFrames) : Host.Outcome ReadFrames Fault Refusal :=
  match r.phase with
  | .stopped _ => .next r
  | .checking =>
    if r.expiry = some 0 then .next { r with phase := .stopped .timeout }
    else hostObserves { r with expiry := r.expiry.map (· - 1) } (step (present (encode .readFrame) r.machine))
  | .waiting => hostObserves r (step r.machine)
  | .aborted => hostIgnores r (step r.machine)

/-- `n` steps of READ_FRAMES, stopping at a fault or a refusal. -/
def readFramesRun : Nat → ReadFrames → Host.Outcome ReadFrames Fault Refusal
  | 0, r => .next r
  | n + 1, r =>
    match readFramesStep r with
    | .next r' => readFramesRun n r'
    | .fault e => .fault e
    | .refused e => .refused e

end Sys2Proof.Machine
end

