-- ==== Sys2Proof/Safety.lean ====
section
/-! DEFINITION. The terms statements use: the invariant of the machine (10_state.md R30 to R34; 43_stream_reassembler.md R190), the statuses a
command may complete with (60_exceptions.md R201), and the causes of a COBS decoding error (42_frame_decoder.md R141). -/

namespace Sys2Proof.Safety

open Sys2Proof.Machine

/-- `p1 ++ [0x00] ++ p2 ++ [0x00] ++ ... ++ pk ++ [0x00]` (R190). -/
def delimited : List Bytes → Bytes
  | [] => []
  | p :: ps => p ++ delimiter :: delimited ps

/-- The receive buffer holds no delimiter. -/
abbrev NoDelimiter (b : Bytes) : Prop := delimiter ∉ b

/-- `|RXBUF| <= RX_CAP` (R30). -/
def WithinCap (p : Params) (b : Bytes) : Prop := ∀ cap, p.rxCap = some cap → b.length ≤ cap

/-- What holds of every state a run from reset reaches. -/
structure Inv (s : State) : Prop where
  /-- The build obeys R14 and R16. -/
  params : s.params.wellFormed = true
  /-- "`PEND = NONE` exactly when `PHASE = IDLE`" (R32). -/
  pend : s.pend = .none ↔ s.phase = .idle
  /-- A fetch is issued only when no delimiter is buffered (R174). -/
  waiting : s.phase = .fetchWait → NoDelimiter s.rxbuf
  /-- `|RXBUF| <= RX_CAP` (R30). -/
  cap : WithinCap s.params s.rxbuf
  /-- "With `RX_CAP = INF` ... `OVF` is always 0" (R34). -/
  ovf : s.params.rxCap = none → s.ovf = false
  /-- No byte is lost: `C = p1 ++ [0x00] ++ ... ++ pk ++ [0x00] ++ RXBUF` (R190). -/
  conserved : s.fed = delimited s.taken ++ s.rxbuf
  /-- A packet is the bytes before one delimiter (R26, R171). -/
  packets : ∀ p ∈ s.taken, NoDelimiter p

/-- The row of R201 for a command. -/
def allowedStatuses (i : Instr) : List Status :=
  match i with
  | .crc32 _ => [.ok, .illegalCommand]
  | .encode _ _ => [.ok, .invalidLength, .illegalCommand]
  | .decode _ => [.ok, .invalidLength, .decodeError, .invalidCrc, .illegalCommand]
  | .send _ _ => [.ok, .invalidLength, .transportError, .illegalCommand]
  | .extract false => [.ok, .absent, .illegalCommand]
  | .extract true => [.ok, .absent, .transportError, .rxOverflow, .illegalCommand]
  | .readFrame => [.ok, .absent, .transportError, .rxOverflow, .illegalCommand]

/-- `k` steps of the machine, stopping at a fault or a refusal. -/
def steps : Nat → State → Result
  | 0, s => .next s
  | k + 1, s =>
    match step s with
    | .next t => steps k t
    | .fault r => .fault r
    | .refused r => .refused r

/-- The host issues READ_FRAME. -/
def readCommand : Event := .command (encode .readFrame)

/-- The engine's own four state elements (R30). -/
structure Elements where
  rxbuf : Bytes
  phase : Phase
  pend : Pend
  ovf : Bool
  deriving DecidableEq, Repr

/-- The state elements of a state (R30). -/
def elements (s : State) : Elements := ⟨s.rxbuf, s.phase, s.pend, s.ovf⟩

/-- The command a value of `PEND` stands for (R32). -/
def pendCommand (k : Pend) : Option Instr :=
  match k with
  | .none => none
  | .extract => some (.extract true)
  | .readFrame => some .readFrame

/-- The chunk the next step takes as the answer of the pending read; `[]` when it takes none (R174). -/
def answeredChunk (s : State) : Bytes :=
  match s.phase, s.inputs with
  | .fetchWait, .answer (.chunk c) :: _ => c
  | _, _ => []

/-- The next step runs READ_FRAME: its issue, or the answer it waits for (R180, R175). -/
def runsReadFrame (s : State) : Prop :=
  (s.phase = .idle ∧ ∃ tx rest, s.inputs = .command tx :: rest ∧ decode s.params tx = .command .readFrame) ∨
    (s.phase = .fetchWait ∧ s.pend = .readFrame)

/-- The completion records among some observations, in order. -/
def completions : List Obs → List Completion
  | [] => []
  | .completion c :: os => c :: completions os
  | .write _ _ :: os => completions os
  | .readIssued _ :: os => completions os
  | .readAnswered _ :: os => completions os

/-- The transport reads issued among some observations. -/
def readsIssued : List Obs → Nat
  | [] => 0
  | .readIssued _ :: os => readsIssued os + 1
  | .completion _ :: os => readsIssued os
  | .write _ _ :: os => readsIssued os
  | .readAnswered _ :: os => readsIssued os

/-- The causes of R141, "walking `y` block by block from its first byte": Z1, Z2, T, or a cause further on. -/
inductive CobsFails : Bytes → Prop
  /-- Z1: a code byte is `0x00`. -/
  | zeroCode (rest : Bytes) : CobsFails (delimiter :: rest)
  /-- Z2: a `0x00` lies among the data bytes a code byte claims. -/
  | zeroInside (c : Byte) (rest : Bytes) : c ≠ delimiter → delimiter ∈ rest.take (c.toNat - 1) → CobsFails (c :: rest)
  /-- T: the last code byte claims more data bytes than remain. -/
  | truncated (c : Byte) (rest : Bytes) : c ≠ delimiter → rest.length < c.toNat - 1 → CobsFails (c :: rest)
  /-- The walk goes on to the next block. -/
  | later (c : Byte) (block rest : Bytes) : c ≠ delimiter → block.length = c.toNat - 1 → delimiter ∉ block →
      CobsFails rest → CobsFails (c :: (block ++ rest))

/-- One bit of one byte of a block inverted (R153). -/
def flipBit (r : Bytes) (i b : Nat) : Bytes := r.set i (r.getD i 0 ^^^ (1#8 <<< b))

/-- The wire bytes of some frames, one after another. -/
def wireAll (fs : List Frame) : Bytes := (fs.map wire).flatten

end Sys2Proof.Safety
end

