-- ==== Sys2Proof/Certificates/Slice0/Obligations.lean ====
section
/-! DEFINITION. The statements for the provers. Each docstring names the rule a statement formalises. Where a statement says
`phase := .idle, pend := .none`, that is the part of R24 that every completion writes. What a statement says of the model's own fields
is the model's choice and no rule's: `inputs` (log entry 1), `writeDraws` (4), `trace` (5, for R29), `fed` and `taken` (6, for R190). -/

open Sys2Proof Sys2Proof.Machine Sys2Proof.Safety

/-! ## Encodings -/

/-- Decoding an encoded well-formed command gives it back, every operand at every value (R71, R77, R79). -/
def Obligations.DecodeOfEncode : Prop :=
  ∀ (p : Params) (i : Instr), i.wellFormed p = true → decode p (encode i) = .command i

/-- A transaction that decodes is the encoding of the command it decodes to, bit for bit, and that command is well formed. -/
def Obligations.EncodeOfDecode : Prop :=
  ∀ (p : Params) (tx : Transaction) (i : Instr),
    decode p tx = .command i → encode i = tx ∧ i.wellFormed p = true

/-- R78: a word selects its operation by match and mask, no two rows match the same word, and a word that matches no row is
illegal. -/
def Obligations.MatchAndMaskSelectTheOperation : Prop :=
  (∀ (cmd : Word), ∀ r ∈ cmdRows, ∀ r' ∈ cmdRows, r.hits cmd = true → r'.hits cmd = true → r = r') ∧
  (∀ (p : Params) (tx : Transaction), (∀ r ∈ cmdRows, r.hits tx.cmd = false) → ∃ why, decode p tx = .illegal why) ∧
  (∀ (p : Params) (tx : Transaction), ∀ r ∈ cmdRows, r.hits tx.cmd = true → p.dinFits tx.din = true →
    (tx.din = [] ∨ r.op.takesDin = true) → decode p tx = .command (r.op.instr tx)) ∧
  (∀ (p : Params) (tx : Transaction) (i : Instr), decode p tx = .command i →
    ∃ r ∈ cmdRows, r.hits tx.cmd = true ∧ i = r.op.instr tx)

/-- R79: legality is checked first; an illegal transaction completes with ILLEGAL_COMMAND and nothing else changes; a legal one
runs its command; a payload over 65535 bytes is legal, and fails later with INVALID_LENGTH. -/
def Obligations.LegalityIsCheckedFirst : Prop :=
  (∀ (s : State) (tx : Transaction) (rest : List Event), s.phase = .idle → s.inputs = .command tx :: rest →
    if legal s.params tx = true then
      ∃ i, decode s.params tx = .command i ∧ step s = exec i { s with inputs := rest }
    else
      step s = .next { s with
        inputs := rest, phase := .idle, pend := .none, trace := s.trace ++ [.completion ⟨.illegalCommand, 0, []⟩] }) ∧
  (∀ (p : Params) (type : Half) (din : Bytes), p.dinFits din = true →
    legal p (encode (.encode type din)) = true ∧ legal p (encode (.send type din)) = true) ∧
  (∀ (s : State) (type : Half) (din : Bytes), s.phase = .idle → 65535 < din.length →
    exec (.encode type din) s = .next { s with
      phase := .idle, pend := .none, trace := s.trace ++ [.completion ⟨.invalidLength, 0, []⟩] } ∧
    exec (.send type din) s = .next { s with
      phase := .idle, pend := .none, trace := s.trace ++ [.completion ⟨.invalidLength, 0, []⟩] })

/-- R80: every reserved encoding completes with ILLEGAL_COMMAND and changes nothing. -/
def Obligations.ReservedEncodingsChangeNothing : Prop :=
  ∀ (s : State) (tx : Transaction) (rest : List Event), s.phase = .idle → s.inputs = .command tx :: rest →
    (opcField tx.cmd = 0 ∨ 7 ≤ (opcField tx.cmd).toNat ∨ rsvField tx.cmd ≠ 0 ∨
      (fetchField tx.cmd = true ∧ opcField tx.cmd ≠ 5) ∨
      (typeField tx.cmd ≠ 0 ∧ opcField tx.cmd ≠ 2 ∧ opcField tx.cmd ≠ 4) ∨
      (tx.din ≠ [] ∧ (opcField tx.cmd = 5 ∨ opcField tx.cmd = 6))) →
    step s = .next { s with
      inputs := rest, phase := .idle, pend := .none, trace := s.trace ++ [.completion ⟨.illegalCommand, 0, []⟩] }

/-- The words of R91's examples, written out, decode to the commands they stand for, and `F = 1` on READ_FRAME is illegal. -/
def Obligations.ExampleWordsDecode : Prop :=
  decode Params.default ⟨0x00000001#32, [0x31, 0x32, 0x33]⟩ = .command (.crc32 [0x31, 0x32, 0x33]) ∧
  decode Params.default ⟨0x00010002#32, [0x78]⟩ = .command (.encode 0x0001#16 [0x78]) ∧
  decode Params.default ⟨0xFFFF0002#32, []⟩ = .command (.encode 0xFFFF#16 []) ∧
  decode Params.default ⟨0x00000003#32, [0x02, 0x01]⟩ = .command (.decode [0x02, 0x01]) ∧
  decode Params.default ⟨0x00030004#32, []⟩ = .command (.send 0x0003#16 []) ∧
  decode Params.default ⟨0x00000005#32, []⟩ = .command (.extract false) ∧
  decode Params.default ⟨0x00000105#32, []⟩ = .command (.extract true) ∧
  decode Params.default ⟨0x00000006#32, []⟩ = .command .readFrame ∧
  ∃ why, decode Params.default ⟨0x00000106#32, []⟩ = .illegal why

/-- Lines of R91's table and the pseudo-instructions of R90, assembled. -/
def Obligations.ExampleLinesAssemble : Prop :=
  assemble "CRC32 a\"123\"".toList = some (.command (.crc32 [0x31, 0x32, 0x33])) ∧
  assemble "ENCODE type=0xFFFF, h\"\"".toList = some (.command (.encode 0xFFFF#16 [])) ∧
  assemble "DECODE h\"02 01 06\"".toList = some (.command (.decode [0x02, 0x01, 0x06])) ∧
  assemble "SEND type=3, h\"\"".toList = some (.command (.send 0x0003#16 [])) ∧
  assemble "EXTRACT fetch=0".toList = some (.command (.extract false)) ∧
  assemble "EXTRACT".toList = some (.command (.extract true)) ∧
  assemble "READ_FRAME".toList = some (.command .readFrame) ∧
  assemble "READ_FRAMES timeout=none".toList = some (.hostLoop none)

/-! ## The step, reset and the waiting engine -/

/-- A step runs the decoded command (R28, R39): when the next event is a transaction that decodes, the step in IDLE is `exec` of the
command, the event being used up. -/
def Obligations.StepRunsTheDecodedCommand : Prop :=
  ∀ (s : State) (tx : Transaction) (rest : List Event) (i : Instr), s.phase = .idle → s.inputs = .command tx :: rest →
    decode s.params tx = .command i → step s = exec i { s with inputs := rest }

/-- R230, R233, R46: reset, in every phase, writes the state elements and nothing is sent or written (the model's history starts
again, and its other own fields stay: log entry 16); power-on is the same state. -/
def Obligations.ResetStep : Prop :=
  (∀ (s : State) (rest : List Event), s.inputs = .reset :: rest →
    step s = .next { s with
      inputs := rest, rxbuf := [], phase := .idle, pend := .none, ovf := false, fed := [], taken := [] }) ∧
  elements State.reset = ⟨[], .idle, .none, false⟩

/-- R231: a reset during a fetch aborts the command with no completion, and an answer to its read that comes later is discarded,
whether or not another fetch is then in progress. The events `lateAnswer` and `answer` in IDLE are the model's form of such an
answer (log entry 10). -/
def Obligations.AbandonedReadIsDiscarded : Prop :=
  (∀ (s : State) (a : ReadAnswer) (rest : List Event), s.phase = .fetchWait →
    (s.inputs = .reset :: .lateAnswer a :: rest ∨ s.inputs = .reset :: .answer a :: rest) →
    ∃ t, steps 2 s = .next t ∧ elements t = ⟨[], .idle, .none, false⟩ ∧ t.trace = s.trace ∧ t.inputs = rest) ∧
  (∀ (s : State) (a : ReadAnswer) (rest : List Event), s.inputs = .lateAnswer a :: rest →
    step s = .next { s with inputs := rest })

/-- R210: while its read has no answer the engine stays in FETCH_WAIT, for any number of steps, whatever late answers to other
reads arrive. -/
def Obligations.UnansweredReadWaitsForever : Prop :=
  ∀ (k : Nat) (s : State), s.phase = .fetchWait → (∀ e ∈ s.inputs, ∃ a, e = .lateAnswer a) →
    steps k s = .next { s with inputs := s.inputs.drop k }

/-- The model's choice (log entry 8, for R235): a command that reaches the engine in FETCH_WAIT is refused by name. -/
def Obligations.CommandDuringFetchIsRefused : Prop :=
  (∀ (s : State) (tx : Transaction) (rest : List Event), s.phase = .fetchWait → s.inputs = .command tx :: rest →
    step s = .refused .commandDuringFetch) ∧
  (∀ (i : Instr) (s : State), s.phase = .fetchWait → exec i s = .refused .commandDuringFetch)

/-- With the invariant, a step answers a next state unless the run has left the spec's contract: a command in FETCH_WAIT (R235, log
entry 8) or a read answer longer than READ_MAX (R64, log entry 7). -/
def Obligations.StepStopsOnlyOutsideTheContract : Prop :=
  ∀ (s : State), Inv s →
    ((∃ t, step s = .next t) ↔
      ¬(s.phase = .fetchWait ∧ ∃ e rest, s.inputs = e :: rest ∧
        ((∃ tx, e = .command tx) ∨ ∃ c, e = .answer (.chunk c) ∧ s.params.readMax < c.length)))

/-! ## The CRC-32 engine -/

/-- R107: CRC32 completes with OK and the CRC of its operand, and touches nothing else; with the rule's corner cases. -/
def Obligations.Crc32Command : Prop :=
  (∀ (din : Bytes) (s : State), s.phase = .idle →
    exec (.crc32 din) s = .next { s with
      phase := .idle, pend := .none, trace := s.trace ++ [.completion ⟨.ok, crc32 din, []⟩] }) ∧
  (∀ din, (encode (.crc32 din)).cmd = 0x00000001#32) ∧
  crc32 [] = 0x00000000#32 ∧ crc32 [0x00] = 0xD202EF8D#32 ∧ crc32 [0xFF, 0xFF, 0xFF, 0xFF] = 0xFFFFFFFF#32 ∧
  crc32 [0x31, 0x32, 0x33, 0x34, 0x35, 0x36, 0x37, 0x38, 0x39] = 0xCBF43926#32

/-- R103: the table form is the bitwise form, for every register value and byte; and the entries the rule lists. -/
def Obligations.CrcTableForm : Prop :=
  (∀ (s : Word) (b : Byte), crcByteByTable s b = crcByte s b) ∧
  crcTable 0x00 = 0x00000000#32 ∧ crcTable 0x01 = 0x77073096#32 ∧ crcTable 0x02 = 0xEE0E612C#32 ∧
  crcTable 0x80 = 0xEDB88320#32 ∧ crcTable 0xFF = 0x2D02EF8D#32

/-- R104: a message may be fed in pieces of any size. -/
def Obligations.CrcOverPieces : Prop :=
  (∀ (s : Word) (a b : Bytes), crcRun (crcRun s a) b = crcRun s (a ++ b)) ∧
  (∀ (pieces : List Bytes), pieces.foldl crcRun crcInit ^^^ crcFinal = crc32 pieces.flatten)

/-- R108: two messages of one length that differ, and differ only within 32 consecutive bits (bit 0 of each byte first), have
different CRCs. A single flipped bit is the case of one bit. -/
def Obligations.CrcDetectsShortBursts : Prop :=
  ∀ (m m' : Bytes) (k : Nat), m.length = m'.length → m ≠ m' →
    (∀ i j, j < 8 → (m.getD i 0).getLsbD j ≠ (m'.getD i 0).getLsbD j → k ≤ 8 * i + j ∧ 8 * i + j < k + 32) →
    crc32 m ≠ crc32 m'

/-! ## The frame encoder -/

/-- R123: the encoding holds no zero. -/
def Obligations.CobsEncodingHasNoZero : Prop :=
  ∀ (x : Bytes), delimiter ∉ cobsEncode x

/-- R124: COBS round trip. -/
def Obligations.CobsRoundTrip : Prop :=
  ∀ (x : Bytes), cobsDecode (cobsEncode x) = .ok x

/-- R125: the length bounds, where the upper one is reached, and the rule's examples. -/
def Obligations.CobsLengthBounds : Prop :=
  (∀ (x : Bytes), x.length + 1 ≤ (cobsEncode x).length ∧ (cobsEncode x).length ≤ x.length + 1 + x.length / 254) ∧
  (∀ (x : Bytes), delimiter ∉ x → x.length % 254 ≠ 0 → (cobsEncode x).length = x.length + 1 + x.length / 254) ∧
  (∀ (x : Bytes), delimiter ∉ x →
    (x.length = 254 → (cobsEncode x).length = 255) ∧ (x.length = 255 → (cobsEncode x).length = 257) ∧
    (x.length = 508 → (cobsEncode x).length = 510))

/-- R122 in words: a zero-free run ends at a zero, at its 254th byte, or at the end of the input, and is written with its code. -/
def Obligations.CobsEncodingByBlocks : Prop :=
  (∀ (run x : Bytes), delimiter ∉ run → run.length ≤ 253 →
    cobsEncode (run ++ delimiter :: x) = BitVec.ofNat 8 (run.length + 1) :: (run ++ cobsEncode x)) ∧
  (∀ (run : Bytes), delimiter ∉ run → run.length ≤ 253 →
    cobsEncode run = BitVec.ofNat 8 (run.length + 1) :: run) ∧
  (∀ (run x : Bytes), delimiter ∉ run → run.length = 254 → x ≠ [] →
    cobsEncode (run ++ x) = 0xFF#8 :: (run ++ cobsEncode x)) ∧
  (∀ (run : Bytes), delimiter ∉ run → run.length = 254 → cobsEncode run = 0xFF#8 :: run)

/-- R85: the layout of the raw block. -/
def Obligations.RawBlockLayout : Prop :=
  ∀ (f : Frame), f.wellFormed = true →
    (raw f).length = 8 + f.data.length ∧
    rdLe16 (raw f) 0 = f.type ∧
    (rdLe16 (raw f) 2).toNat = f.data.length ∧
    ((raw f).drop 4).take f.data.length = f.data ∧
    rdLe32 (raw f) (4 + f.data.length) = crc32 ((raw f).take (4 + f.data.length))

/-- R126, R130: the wire frame is the stuffed raw block and a terminator, has exactly one zero, its last byte, and its length lies
within the rule's bounds. -/
def Obligations.WireFrame : Prop :=
  (∀ (f : Frame), wire f = cobsEncode (raw f) ++ [delimiter] ∧ (wire f).count delimiter = 1 ∧
    (wire f).getLast? = some delimiter) ∧
  (∀ (f : Frame), f.wellFormed = true →
    10 + f.data.length ≤ (wire f).length ∧
    (wire f).length ≤ 10 + f.data.length + (8 + f.data.length) / 254 ∧ (wire f).length ≤ Config.maxWire) ∧
  (∀ (f : Frame), f.data.length = 0 → (wire f).length = 10)

/-- R127, R128: ENCODE of a payload within the bound completes with OK and the wire bytes, and touches nothing else; an oversized
payload completes with INVALID_LENGTH and no bytes; an OK completion never stands for a truncated payload. -/
def Obligations.EncodeCommand : Prop :=
  (∀ (type : Half) (din : Bytes) (s : State), s.phase = .idle → din.length ≤ 65535 →
    exec (.encode type din) s = .next { s with
      phase := .idle, pend := .none, trace := s.trace ++ [.completion ⟨.ok, 0, wire ⟨type, din⟩⟩] }) ∧
  (∀ (type : Half) (din : Bytes) (s : State), s.phase = .idle → 65535 < din.length →
    exec (.encode type din) s = .next { s with
      phase := .idle, pend := .none, trace := s.trace ++ [.completion ⟨.invalidLength, 0, []⟩] }) ∧
  (∀ (type : Half) (din out : Bytes) (s t : State) (v : Word), exec (.encode type din) s = .next t →
    t.trace = s.trace ++ [.completion ⟨.ok, v, out⟩] → decodeFrame out = .ok ⟨type, din⟩)

/-! ## The frame decoder -/

/-- R141: COBS decoding fails exactly on the causes Z1, Z2 and T, always with DECODE_ERROR, and never on `[]` or on an encoding. -/
def Obligations.CobsDecodingFailsExactly : Prop :=
  (∀ (y : Bytes), cobsDecode y = .error .decodeError ↔ CobsFails y) ∧
  (∀ (y : Bytes) (k : ErrorKind), cobsDecode y = .error k → k = .decodeError) ∧
  ¬CobsFails [] ∧ ∀ (x : Bytes), ¬CobsFails (cobsEncode x)

/-- R142: stuffing that the encoder never produces is accepted, and a frame it yields is one whose CRC checks. -/
def Obligations.NonCanonicalStuffingIsAccepted : Prop :=
  (∀ (run : Bytes), delimiter ∉ run → run.length = 254 →
    cobsDecode (0xFF#8 :: (run ++ [0x01#8])) = .ok run ∧ cobsDecode (0xFF#8 :: run) = .ok run ∧
    ∀ x, cobsEncode x ≠ 0xFF#8 :: (run ++ [0x01#8])) ∧
  (∃ (p : Bytes) (f : Frame), decodeFrame p = .ok f ∧ delimiter ∉ p ∧ p ≠ (wire f).dropLast) ∧
  (∀ (p : Bytes) (f : Frame), decodeFrame p = .ok f →
    ∃ r, cobsDecode (stripTerminator p) = .ok r ∧ crc32 (r.take (r.length - 4)) = rdLe32 r (r.length - 4))

/-- R144: exactly one trailing zero is removed; any other zero is a DECODE_ERROR; `00` alone is INVALID_LENGTH. -/
def Obligations.OneTerminatorIsStripped : Prop :=
  (∀ (p : Bytes), p ≠ [] → delimiter ∉ p → decodeFrame (p ++ [delimiter]) = decodeFrame p) ∧
  (∀ (p : Bytes), stripTerminator (p ++ [delimiter]) = p) ∧
  (∀ (p : Bytes), p.getLast? ≠ some delimiter → stripTerminator p = p) ∧
  (∀ (p : Bytes), delimiter ∈ stripTerminator p → decodeFrame p = .error .decodeError) ∧
  decodeFrame [delimiter] = .error .invalidLength

/-- R155: of several faults the first in the rule's order is reported; with none, the frame. -/
def Obligations.DecodeErrorPrecedence : Prop :=
  decodeFrame [] = .error .invalidLength ∧
  (∀ (p : Bytes) (k : ErrorKind), p ≠ [] → cobsDecode (stripTerminator p) = .error k →
    decodeFrame p = .error .decodeError) ∧
  (∀ (p r : Bytes), p ≠ [] → cobsDecode (stripTerminator p) = .ok r →
    (r.length < 8 → decodeFrame p = .error .invalidLength) ∧
    (8 ≤ r.length → crc32 (r.take (r.length - 4)) ≠ rdLe32 r (r.length - 4) → decodeFrame p = .error .invalidCrc) ∧
    (8 ≤ r.length → crc32 (r.take (r.length - 4)) = rdLe32 r (r.length - 4) → (rdLe16 r 2).toNat ≠ r.length - 8 →
      decodeFrame p = .error .invalidLength) ∧
    (8 ≤ r.length → crc32 (r.take (r.length - 4)) = rdLe32 r (r.length - 4) → (rdLe16 r 2).toNat = r.length - 8 →
      decodeFrame p = .ok ⟨rdLe16 r 0, (r.drop 4).take (r.length - 8)⟩))

/-- R154: the length boundary. -/
def Obligations.DecodeLengthBoundary : Prop :=
  (∀ (p r : Bytes), cobsDecode (stripTerminator p) = .ok r → r.length < 8 → decodeFrame p = .error .invalidLength) ∧
  (∀ (p r : Bytes), cobsDecode (stripTerminator p) = .ok r → r.length = 8 → rdLe16 r 2 = 0 →
    crc32 (r.take 4) = rdLe32 r 4 → decodeFrame p = .ok ⟨rdLe16 r 0, []⟩) ∧
  decodeFrame [] = .error .invalidLength

/-- R152: the frame round trip, with and without the terminator. -/
def Obligations.FrameRoundTrip : Prop :=
  ∀ (f : Frame), f.wellFormed = true →
    decodeFrame (wire f) = .ok f ∧ decodeFrame (cobsEncode (raw f)) = .ok f

/-- R153: any single flipped bit of the raw block gives INVALID_CRC. -/
def Obligations.SingleBitFlipGivesInvalidCrc : Prop :=
  ∀ (f : Frame) (i b : Nat), f.wellFormed = true → i < (raw f).length → b < 8 →
    decodeFrame (cobsEncode (flipBit (raw f) i b) ++ [delimiter]) = .error .invalidCrc

/-- What the decoder accepts was the raw block of the frame it returns, byte for byte (R8's guarantee; R145, R148). -/
def Obligations.AcceptedPacketIsTheRawBlockOfItsFrame : Prop :=
  ∀ (p : Bytes) (f : Frame), decodeFrame p = .ok f →
    f.wellFormed = true ∧ cobsDecode (stripTerminator p) = .ok (raw f)

/-- R150, R151: DECODE completes with the frame, or with the status of its error kind, one for each of the three, and touches
nothing else. -/
def Obligations.DecodeCommand : Prop :=
  (∀ (din : Bytes) (f : Frame) (s : State), s.phase = .idle → decodeFrame din = .ok f →
    exec (.decode din) s = .next { s with
      phase := .idle, pend := .none, trace := s.trace ++ [.completion ⟨.ok, f.type.zeroExtend 32, f.data⟩] }) ∧
  (∀ (din : Bytes) (s : State), s.phase = .idle →
    (decodeFrame din = .error .invalidLength → exec (.decode din) s = .next { s with
      phase := .idle, pend := .none, trace := s.trace ++ [.completion ⟨.invalidLength, 0, []⟩] }) ∧
    (decodeFrame din = .error .decodeError → exec (.decode din) s = .next { s with
      phase := .idle, pend := .none, trace := s.trace ++ [.completion ⟨.decodeError, 0, []⟩] }) ∧
    (decodeFrame din = .error .invalidCrc → exec (.decode din) s = .next { s with
      phase := .idle, pend := .none, trace := s.trace ++ [.completion ⟨.invalidCrc, 0, []⟩] }))

/-- R47: a codec command's completion depends on its operands alone, and it writes no state element. -/
def Obligations.CodecCommandsUseNoState : Prop :=
  ∀ (i : Instr), (∃ din, i = .crc32 din) ∨ (∃ type din, i = .encode type din) ∨ (∃ din, i = .decode din) →
    ∃ c : Completion, ∀ (s : State), s.phase = .idle →
      exec i s = .next { s with phase := .idle, pend := .none, trace := s.trace ++ [.completion c] }

/-! ## The stream reassembler -/

/-- R179, R173: EXTRACT with a packet buffered returns the bytes before the first delimiter and keeps every byte after it; with none
and `F = 0` it completes with ABSENT and changes nothing. -/
def Obligations.ExtractCommand : Prop :=
  (∀ (fetch : Bool) (s : State) (p rest : Bytes), s.phase = .idle → delimiter ∉ p → s.rxbuf = p ++ delimiter :: rest →
    exec (.extract fetch) s = .next { s with
      rxbuf := rest, taken := s.taken ++ [p], phase := .idle, pend := .none,
      trace := s.trace ++ [.completion ⟨.ok, 0, p⟩] }) ∧
  (∀ (s : State), s.phase = .idle → delimiter ∉ s.rxbuf →
    exec (.extract false) s = .next { s with
      phase := .idle, pend := .none, trace := s.trace ++ [.completion ⟨.absent, 0, []⟩] })

/-- R174, the issue: EXTRACT with `F = 1` or READ_FRAME, with no delimiter, issues one read of at most READ_MAX bytes and waits. -/
def Obligations.FetchIsIssuedOnce : Prop :=
  ∀ (s : State), s.phase = .idle → delimiter ∉ s.rxbuf →
    exec (.extract true) s = .next { s with
      phase := .fetchWait, pend := .extract, trace := s.trace ++ [.readIssued s.params.readMax] } ∧
    exec .readFrame s = .next { s with
      phase := .fetchWait, pend := .readFrame, trace := s.trace ++ [.readIssued s.params.readMax] }

/-- R180, R181: READ_FRAME with a packet buffered takes it; one that decodes is returned as its frame, and one that does not is
dropped with ABSENT, whatever the error kind. -/
def Obligations.ReadFrameCommand : Prop :=
  ∀ (s : State) (p rest : Bytes), s.phase = .idle → delimiter ∉ p → s.rxbuf = p ++ delimiter :: rest →
    (∀ f, decodeFrame p = .ok f → exec .readFrame s = .next { s with
      rxbuf := rest, taken := s.taken ++ [p], phase := .idle, pend := .none,
      trace := s.trace ++ [.completion ⟨.ok, f.type.zeroExtend 32, f.data⟩] }) ∧
    (∀ k, decodeFrame p = .error k → exec .readFrame s = .next { s with
      rxbuf := rest, taken := s.taken ++ [p], phase := .idle, pend := .none,
      trace := s.trace ++ [.completion ⟨.absent, 0, []⟩] })

/-- R191: an empty packet is returned by EXTRACT and dropped by READ_FRAME. -/
def Obligations.EmptyPacket : Prop :=
  ∀ (s : State) (rest : Bytes), s.phase = .idle → s.rxbuf = delimiter :: rest →
    (∀ fetch, exec (.extract fetch) s = .next { s with
      rxbuf := rest, taken := s.taken ++ [[]], phase := .idle, pend := .none,
      trace := s.trace ++ [.completion ⟨.ok, 0, []⟩] }) ∧
    decodeFrame [] = .error .invalidLength ∧
    exec .readFrame s = .next { s with
      rxbuf := rest, taken := s.taken ++ [[]], phase := .idle, pend := .none,
      trace := s.trace ++ [.completion ⟨.absent, 0, []⟩] }

/-- R183, R184: SEND makes exactly one write of the whole wire frame, completes as the write's answer says, and touches no state
element; an oversized payload makes no write. The write's answer is the state's draw, folded into its law (log entry 4). -/
def Obligations.SendCommand : Prop :=
  (∀ (type : Half) (din : Bytes) (s : State), s.phase = .idle → din.length ≤ 65535 →
    ((nextWriteDraw s = .wok →
      exec (.send type din) s = .next { s with
        phase := .idle, pend := .none, writeDraws := s.writeDraws.tail,
        trace := s.trace ++ [.write (wire ⟨type, din⟩) .wok, .completion ⟨.ok, 0, []⟩] }) ∧
    (∀ k, nextWriteDraw s = .werr k →
      exec (.send type din) s = .next { s with
        phase := .idle, pend := .none, writeDraws := s.writeDraws.tail,
        trace := s.trace ++
          [.write (wire ⟨type, din⟩) (.werr (min k (wire ⟨type, din⟩).length)), .completion ⟨.transportError, 0, []⟩] }))) ∧
  (∀ (type : Half) (din : Bytes) (s : State), s.phase = .idle → 65535 < din.length →
    exec (.send type din) s = .next { s with
      phase := .idle, pend := .none, trace := s.trace ++ [.completion ⟨.invalidLength, 0, []⟩] })

/-- R175: the answer step, case by case: IOERR; overflow; no delimiter after the append; a packet for EXTRACT; a packet for
READ_FRAME, decoded or dropped. -/
def Obligations.AnswerStep : Prop :=
  ∀ (s : State) (a : ReadAnswer) (rest : List Event), s.phase = .fetchWait → s.pend ≠ .none → s.inputs = .answer a :: rest →
    (a = .ioerr → step s = .next { s with
      inputs := rest, phase := .idle, pend := .none,
      trace := s.trace ++ [.readAnswered .ioerr, .completion ⟨.transportError, 0, []⟩] }) ∧
    (∀ c, a = .chunk c → c.length ≤ s.params.readMax →
      (∀ cap, s.params.rxCap = some cap → cap < s.rxbuf.length + c.length →
        step s = .next { s with
          inputs := rest, phase := .idle, pend := .none, ovf := true,
          trace := s.trace ++ [.readAnswered (.chunk c), .completion ⟨.rxOverflow, 0, []⟩] }) ∧
      (WithinCap s.params (s.rxbuf ++ c) →
        (delimiter ∉ s.rxbuf ++ c → step s = .next { s with
          inputs := rest, phase := .idle, pend := .none, rxbuf := s.rxbuf ++ c, fed := s.fed ++ c,
          trace := s.trace ++ [.readAnswered (.chunk c), .completion ⟨.absent, 0, []⟩] }) ∧
        (∀ p tail, s.rxbuf ++ c = p ++ delimiter :: tail → delimiter ∉ p →
          (s.pend = .extract → step s = .next { s with
            inputs := rest, phase := .idle, pend := .none, rxbuf := tail, fed := s.fed ++ c, taken := s.taken ++ [p],
            trace := s.trace ++ [.readAnswered (.chunk c), .completion ⟨.ok, 0, p⟩] }) ∧
          (s.pend = .readFrame →
            (∀ f, decodeFrame p = .ok f → step s = .next { s with
              inputs := rest, phase := .idle, pend := .none, rxbuf := tail, fed := s.fed ++ c, taken := s.taken ++ [p],
              trace := s.trace ++ [.readAnswered (.chunk c), .completion ⟨.ok, f.type.zeroExtend 32, f.data⟩] }) ∧
            (∀ k, decodeFrame p = .error k → step s = .next { s with
              inputs := rest, phase := .idle, pend := .none, rxbuf := tail, fed := s.fed ++ c, taken := s.taken ++ [p],
              trace := s.trace ++ [.readAnswered (.chunk c), .completion ⟨.absent, 0, []⟩] })))))

/-- R176: a zero-length chunk is a normal answer: nothing is appended and the command completes with ABSENT. -/
def Obligations.ZeroLengthChunkIsAbsent : Prop :=
  ∀ (s : State) (rest : List Event), Inv s → s.phase = .fetchWait → s.inputs = .answer (.chunk []) :: rest →
    step s = .next { s with
      inputs := rest, phase := .idle, pend := .none,
      trace := s.trace ++ [.readAnswered (.chunk []), .completion ⟨.absent, 0, []⟩] }

/-- R177: a chunk that does not fit is discarded whole, with RX_OVERFLOW and `OVF = 1`; OVF then stays 1 until reset; with
`RX_CAP = INF` OVF is never set. -/
def Obligations.ReceiveOverflow : Prop :=
  (∀ (s : State) (c : Bytes) (cap : Nat) (rest : List Event), s.phase = .fetchWait → s.params.rxCap = some cap →
    c.length ≤ s.params.readMax → cap < s.rxbuf.length + c.length → s.inputs = .answer (.chunk c) :: rest →
    step s = .next { s with
      inputs := rest, phase := .idle, pend := .none, ovf := true,
      trace := s.trace ++ [.readAnswered (.chunk c), .completion ⟨.rxOverflow, 0, []⟩] }) ∧
  (∀ (s t : State), step s = .next t → s.ovf = true → t.ovf = true ∨ ∃ rest, s.inputs = .reset :: rest) ∧
  (∀ (s t : State), step s = .next t → s.params.rxCap = none → s.ovf = false → t.ovf = false)

/-- R56: what a step does to RXBUF: reset clears it; any other step appends at most the whole chunk of the answered read at the
tail and takes at most one whole packet with its delimiter from the front. The model's history records exactly that (R190). -/
def Obligations.ReceiveBufferChanges : Prop :=
  ∀ (s t : State), step s = .next t →
    ((∃ rest, s.inputs = .reset :: rest) → t.rxbuf = [] ∧ t.fed = [] ∧ t.taken = []) ∧
    ((¬∃ rest, s.inputs = .reset :: rest) → ∃ (c : Bytes) (ps : List Bytes),
      s.rxbuf ++ c = delimited ps ++ t.rxbuf ∧ t.fed = s.fed ++ c ∧ t.taken = s.taken ++ ps ∧
      ps.length ≤ 1 ∧ (∀ p ∈ ps, delimiter ∉ p) ∧ (c = [] ∨ c = answeredChunk s))

/-- R41, R14 to R16: no step writes the build parameters. -/
def Obligations.BuildParametersAreFixed : Prop :=
  ∀ (s t : State), step s = .next t → t.params = s.params

/-- R31, R174: FETCH_WAIT is entered only by a fetching command with no packet buffered, which leaves RXBUF and OVF alone. -/
def Obligations.FetchWaitIsEnteredOnlyByAFetch : Prop :=
  ∀ (s t : State), step s = .next t → s.phase = .idle → t.phase = .fetchWait →
    ∃ tx rest, s.inputs = .command tx :: rest ∧ delimiter ∉ s.rxbuf ∧ t.rxbuf = s.rxbuf ∧ t.ovf = s.ovf ∧
      t.trace = s.trace ++ [.readIssued s.params.readMax] ∧
      ((decode s.params tx = .command (.extract true) ∧ t.pend = .extract) ∨
        (decode s.params tx = .command .readFrame ∧ t.pend = .readFrame))

/-- R45: an ABSENT without a drop leaves no delimiter in RXBUF. -/
def Obligations.AbsentWithoutDropLeavesNoDelimiter : Prop :=
  ∀ (s t : State) (os : List Obs) (c : Completion), step s = .next t → t.trace = s.trace ++ os → c ∈ completions os →
    c.status = .absent → t.taken = s.taken → delimiter ∉ t.rxbuf

/-! ## Statuses and completions -/

/-- R201: every completion's status lies in its command's row; a transaction that does not decode gets ILLEGAL_COMMAND. -/
def Obligations.StatusesStayInTheirRow : Prop :=
  (∀ (i : Instr) (s t : State) (os : List Obs), exec i s = .next t → t.trace = s.trace ++ os →
    ∀ c ∈ completions os, c.status ∈ allowedStatuses i) ∧
  (∀ (a : ReadAnswer) (s t : State) (os : List Obs) (i : Instr), pendCommand s.pend = some i → answerStep a s = .next t →
    t.trace = s.trace ++ os → ∀ c ∈ completions os, c.status ∈ allowedStatuses i) ∧
  (∀ (s t : State) (tx : Transaction) (rest : List Event) (why : Illegal) (os : List Obs), s.inputs = .command tx :: rest →
    decode s.params tx = .illegal why → step s = .next t → t.trace = s.trace ++ os →
    ∀ c ∈ completions os, c.status = .illegalCommand)

/-- R202: what a completion with a status other than OK leaves behind; and that it carries no result (R83). With ABSENT the answered
chunk is appended, and a packet can be gone only if READ_FRAME has run: one packet, the bytes before one delimiter, that does not
decode. -/
def Obligations.ErrorLeavesBehind : Prop :=
  ∀ (s t : State) (os : List Obs) (c : Completion), step s = .next t → t.trace = s.trace ++ os → c ∈ completions os →
    c.status ≠ .ok →
    t.phase = .idle ∧ t.pend = .none ∧ c.rval = 0 ∧ c.dout = [] ∧
    (c.status = .rxOverflow → t.ovf = true) ∧ (c.status ≠ .rxOverflow → t.ovf = s.ovf) ∧
    (c.status ≠ .absent → t.rxbuf = s.rxbuf) ∧
    (c.status = .absent →
      t.rxbuf = s.rxbuf ++ answeredChunk s ∨
      runsReadFrame s ∧ ∃ p k, delimiter ∉ p ∧ decodeFrame p = .error k ∧
        s.rxbuf ++ answeredChunk s = p ++ delimiter :: t.rxbuf)

/-- R28, R58, R204: observations only accumulate; a command completes once in its step or issues one read and waits; an answer to a
pending read completes the waiting command once; nothing else completes anything or reads. -/
def Obligations.OneCompletionPerCommand : Prop :=
  ∀ (s t : State), step s = .next t → ∃ os, t.trace = s.trace ++ os ∧
    match s.inputs with
    | [] => os = []
    | .command _ :: _ =>
      ((completions os).length = 1 ∧ readsIssued os = 0 ∧ t.phase = .idle ∧ t.pend = .none) ∨
        (completions os = [] ∧ readsIssued os = 1 ∧ t.phase = .fetchWait ∧ t.pend ≠ .none)
    | .answer _ :: _ =>
      if s.phase = .fetchWait then (completions os).length = 1 ∧ readsIssued os = 0 ∧ t.phase = .idle ∧ t.pend = .none
      else os = []
    | .lateAnswer _ :: _ => os = []
    | .reset :: _ => os = []

/-! ## Invariants and whole-machine rules -/

/-- The invariant holds at reset (R32, R34, R46, R190). -/
def Obligations.InvariantAtReset : Prop := Inv State.reset

/-- Every step keeps the invariant: PEND is NONE exactly in IDLE (R32); no delimiter is buffered while a fetch waits (R174);
`|RXBUF| <= RX_CAP` (R30); OVF is 0 with an unbounded buffer (R34); no byte is lost (R190). -/
def Obligations.StepKeepsTheInvariant : Prop :=
  ∀ (s t : State), Inv s → step s = .next t → Inv t

/-- R190: from a state in which it holds, such as every state right after reset, the bytes appended are at every step the packets
taken with their delimiters, and then RXBUF. -/
def Obligations.NoByteIsLost : Prop :=
  (∀ (k : Nat) (s t : State), s.fed = delimited s.taken ++ s.rxbuf → steps k s = .next t →
    t.fed = delimited t.taken ++ t.rxbuf) ∧
  (∀ (s t : State) (rest : List Event), s.inputs = .reset :: rest → step s = .next t →
    t.fed = delimited t.taken ++ t.rxbuf)

/-- R62: however the sender's wire frames were cut into chunks, and whenever one looks, the packets taken so far decode to the first
frames sent, in order; and once no delimiter is buffered and all has arrived, to all of them, with nothing left. -/
def Obligations.ReassemblyInOrder : Prop :=
  (∀ (s : State) (fs : List Frame), Inv s → (∀ f ∈ fs, f.wellFormed = true) → s.fed <+: wireAll fs →
    s.taken.length ≤ fs.length ∧ s.taken.map decodeFrame = (fs.take s.taken.length).map .ok) ∧
  (∀ (s : State) (fs : List Frame), Inv s → (∀ f ∈ fs, f.wellFormed = true) → s.fed = wireAll fs → delimiter ∉ s.rxbuf →
    s.taken.map decodeFrame = fs.map .ok ∧ s.rxbuf = [])

/-- R193: two frames in one chunk: two READ_FRAMEs return both, in order, with one transport read. -/
def Obligations.StreamSplitting : Prop :=
  ∀ (f g : Frame) (s : State) (rest : List Event), f.wellFormed = true → g.wellFormed = true →
    s.phase = .idle → s.rxbuf = [] → (wire f ++ wire g).length ≤ s.params.readMax → WithinCap s.params (wire f ++ wire g) →
    s.inputs = readCommand :: .answer (.chunk (wire f ++ wire g)) :: readCommand :: rest →
    steps 3 s = .next { s with
      inputs := rest, phase := .idle, pend := .none, rxbuf := [], fed := s.fed ++ (wire f ++ wire g),
      taken := s.taken ++ [cobsEncode (raw f), cobsEncode (raw g)],
      trace := s.trace ++
        [.readIssued s.params.readMax, .readAnswered (.chunk (wire f ++ wire g)),
          .completion ⟨.ok, f.type.zeroExtend 32, f.data⟩, .completion ⟨.ok, g.type.zeroExtend 32, g.data⟩] }

/-- R194: a wire frame split over two chunks: the first READ_FRAME is ABSENT and keeps the first part, the second returns the
frame. -/
def Obligations.PartialDelivery : Prop :=
  ∀ (f : Frame) (c d : Bytes) (s : State) (rest : List Event), f.wellFormed = true → c ++ d = wire f → d ≠ [] →
    s.phase = .idle → s.rxbuf = [] → c.length ≤ s.params.readMax → d.length ≤ s.params.readMax →
    WithinCap s.params (wire f) →
    s.inputs = readCommand :: .answer (.chunk c) :: readCommand :: .answer (.chunk d) :: rest →
    (∃ t, steps 2 s = .next t ∧ t.rxbuf = c) ∧
    steps 4 s = .next { s with
      inputs := rest, phase := .idle, pend := .none, rxbuf := [], fed := s.fed ++ wire f,
      taken := s.taken ++ [cobsEncode (raw f)],
      trace := s.trace ++
        [.readIssued s.params.readMax, .readAnswered (.chunk c), .completion ⟨.absent, 0, []⟩,
          .readIssued s.params.readMax, .readAnswered (.chunk d), .completion ⟨.ok, f.type.zeroExtend 32, f.data⟩] }

/-- The block's one guarantee on a loop-back link (R8, R67, R152): a frame sent, whose bytes a later read returns, is the frame
READ_FRAME returns. -/
def Obligations.SendThenReadFrameReturnsTheFrame : Prop :=
  ∀ (f : Frame) (s : State) (rest : List Event), f.wellFormed = true → Instr.wellFormed s.params (.send f.type f.data) = true →
    s.phase = .idle → s.rxbuf = [] → nextWriteDraw s = .wok → (wire f).length ≤ s.params.readMax →
    WithinCap s.params (wire f) →
    s.inputs = .command (encode (.send f.type f.data)) :: readCommand :: .answer (.chunk (wire f)) :: rest →
    ∃ t, steps 3 s = .next t ∧ t.rxbuf = [] ∧ t.inputs = rest ∧
      t.trace = s.trace ++
        [.write (wire f) .wok, .completion ⟨.ok, 0, []⟩, .readIssued s.params.readMax, .readAnswered (.chunk (wire f)),
          .completion ⟨.ok, f.type.zeroExtend 32, f.data⟩]

/-! ## READ_FRAMES -/

/-- R186, R188: the loop, step by step. Before a READ_FRAME: the deadline; a buffered frame is yielded; a buffered packet that does
not decode goes round again; with no packet buffered a read is issued. While it waits: with no answer it waits on; IOERR and
RX_OVERFLOW stop it; a fetched frame is yielded; both kinds of ABSENT go round; a late answer to another read changes nothing. Once
stopped it stays so. The draws of `Expired()` and the consumer's stop are the run's (log entry 11), and READ_FRAME goes ahead of the
events still to come (log entry 19). The model's choice (log entry 20): a reset while it waits aborts its READ_FRAME, and from then on
it takes no completion of any command. -/
def Obligations.ReadFramesLoop : Prop :=
  (∀ (r : ReadFrames), r.phase = .checking → r.expiry = some 0 →
    readFramesStep r = .next { r with phase := .stopped .timeout }) ∧
  (∀ (r : ReadFrames) (p rest : Bytes) (f : Frame), r.phase = .checking → r.expiry ≠ some 0 → r.machine.phase = .idle →
    delimiter ∉ p → r.machine.rxbuf = p ++ delimiter :: rest → decodeFrame p = .ok f →
    ∃ m, exec .readFrame r.machine = .next m ∧
      readFramesStep r = .next { r with
        expiry := r.expiry.map (· - 1), appetite := r.appetite.map (· - 1), yielded := r.yielded ++ [f],
        phase := if r.appetite = some 0 then .stopped .consumer else .checking, machine := m }) ∧
  (∀ (r : ReadFrames) (p rest : Bytes) (k : ErrorKind), r.phase = .checking → r.expiry ≠ some 0 → r.machine.phase = .idle →
    delimiter ∉ p → r.machine.rxbuf = p ++ delimiter :: rest → decodeFrame p = .error k →
    ∃ m, exec .readFrame r.machine = .next m ∧
      readFramesStep r = .next { r with expiry := r.expiry.map (· - 1), machine := m }) ∧
  (∀ (r : ReadFrames), r.phase = .checking → r.expiry ≠ some 0 → r.machine.phase = .idle → delimiter ∉ r.machine.rxbuf →
    ∃ m, exec .readFrame r.machine = .next m ∧
      readFramesStep r = .next { r with expiry := r.expiry.map (· - 1), phase := .waiting, machine := m }) ∧
  (∀ (r : ReadFrames) (rest : List Event), r.phase = .waiting → r.machine.phase = .fetchWait →
    r.machine.inputs = .answer .ioerr :: rest →
    ∃ m, step r.machine = .next m ∧
      readFramesStep r = .next { r with phase := .stopped (.error .transportError), machine := m }) ∧
  (∀ (r : ReadFrames) (c : Bytes) (rest : List Event), r.phase = .waiting → r.machine.phase = .fetchWait →
    r.machine.pend = .readFrame → r.machine.inputs = .answer (.chunk c) :: rest → c.length ≤ r.machine.params.readMax →
    ∃ m, step r.machine = .next m ∧
      (¬WithinCap r.machine.params (r.machine.rxbuf ++ c) →
        readFramesStep r = .next { r with phase := .stopped (.error .rxOverflow), machine := m }) ∧
      (WithinCap r.machine.params (r.machine.rxbuf ++ c) →
        (delimiter ∉ r.machine.rxbuf ++ c → readFramesStep r = .next { r with phase := .checking, machine := m }) ∧
        (∀ p tail, r.machine.rxbuf ++ c = p ++ delimiter :: tail → delimiter ∉ p →
          (∀ k, decodeFrame p = .error k → readFramesStep r = .next { r with phase := .checking, machine := m }) ∧
          (∀ f, decodeFrame p = .ok f → readFramesStep r = .next { r with
            appetite := r.appetite.map (· - 1), yielded := r.yielded ++ [f],
            phase := if r.appetite = some 0 then .stopped .consumer else .checking, machine := m })))) ∧
  (∀ (r : ReadFrames), r.phase = .waiting → r.machine.inputs = [] → readFramesStep r = .next r) ∧
  (∀ (r : ReadFrames) (a : ReadAnswer) (rest : List Event), r.phase = .waiting → r.machine.phase = .fetchWait →
    r.machine.inputs = .lateAnswer a :: rest →
    readFramesStep r = .next { r with machine := { r.machine with inputs := rest } }) ∧
  (∀ (r : ReadFrames) (rest : List Event), r.phase = .waiting → r.machine.phase = .fetchWait →
    r.machine.inputs = .reset :: rest →
    ∃ m, step r.machine = .next m ∧ readFramesStep r = .next { r with phase := .aborted, machine := m }) ∧
  (∀ (r : ReadFrames) (m : State), r.phase = .aborted → step r.machine = .next m →
    readFramesStep r = .next { r with machine := m }) ∧
  (∀ (r : ReadFrames) (why : HostStop), r.phase = .stopped why → readFramesStep r = .next r)

/-- R195: a packet with a bad CRC and then a valid wire frame, followed by silence: READ_FRAMES yields exactly the valid frame. -/
def Obligations.CorruptFrameResilience : Prop :=
  ∀ (n : Nat) (bad : Bytes) (f : Frame) (m : State), delimiter ∉ bad → decodeFrame bad = .error .invalidCrc →
    f.wellFormed = true → m.phase = .idle → m.rxbuf = [] →
    (bad ++ delimiter :: wire f).length ≤ m.params.readMax → WithinCap m.params (bad ++ delimiter :: wire f) →
    m.inputs = .answer (.chunk (bad ++ delimiter :: wire f)) :: List.replicate n (.answer (.chunk [])) →
    ∃ r, readFramesRun (2 * n + 4) (readFramesOn (some (n + 2)) none m) = .next r ∧
      r.yielded = [f] ∧ r.phase = .stopped .timeout ∧ r.machine.rxbuf = []

/-- R196: on a silent link READ_FRAMES yields nothing and stops at the first check after the deadline, one transport read for each
check before it. -/
def Obligations.SilentLinkTimesOut : Prop :=
  ∀ (n : Nat) (m : State) (appetite : Option Nat) (rest : List Event), m.phase = .idle → delimiter ∉ m.rxbuf →
    WithinCap m.params m.rxbuf → m.inputs = List.replicate n (.answer (.chunk [])) ++ rest →
    ∃ r os, readFramesRun (2 * n + 1) (readFramesOn (some n) appetite m) = .next r ∧
      r.yielded = [] ∧ r.phase = .stopped .timeout ∧ r.machine.rxbuf = m.rxbuf ∧ r.machine.inputs = rest ∧
      r.machine.trace = m.trace ++ os ∧ readsIssued os = n

/-! ## Status codes -/

/-- R200: the code of each status; the codes are distinct, and 0x08 to 0xFF are never produced. -/
def Obligations.StatusCodes : Prop :=
  statusCode .ok = 0x00#8 ∧ statusCode .absent = 0x01#8 ∧ statusCode .invalidLength = 0x02#8 ∧
  statusCode .decodeError = 0x03#8 ∧ statusCode .invalidCrc = 0x04#8 ∧ statusCode .transportError = 0x05#8 ∧
  statusCode .illegalCommand = 0x06#8 ∧ statusCode .rxOverflow = 0x07#8 ∧
  (∀ a b, statusCode a = statusCode b → a = b) ∧ ∀ a, (statusCode a).toNat < 0x08
end

