-- ==== Sys2Proof/Laws/Codec.lean ====
section
/-! SUPPORT. The equations of the codec's functions, so that no later proof unfolds them. -/

namespace Sys2Proof.Machine

/-! ## Byte order (R20) -/

@[simp] theorem le16_length (v : Half) : (le16 v).length = 2 := rfl

@[simp] theorem le32_length (v : Word) : (le32 v).length = 4 := rfl

@[simp] theorem hdr_length (f : Frame) : (hdr f).length = 4 := rfl

/-! ## CRC (R101, R102) -/

@[simp] theorem crcBits_zero (s : Word) : crcBits 0 s = s := rfl

@[simp] theorem crcBits_succ (n : Nat) (s : Word) : crcBits (n + 1) s = crcBits n (crcBit s) := rfl

@[simp] theorem crcRun_nil (s : Word) : crcRun s [] = s := rfl

@[simp] theorem crcRun_cons (s : Word) (b : Byte) (m : Bytes) : crcRun s (b :: m) = crcRun (crcByte s b) m := rfl

/-! ## COBS encoding, one lemma per turn of the loop of R122 -/

/-- The end of the input closes the open block. -/
theorem cobsFrom_end {block : Bytes} {z : Bool} (h : block.length ≠ 0 ∨ z = true) :
    cobsFrom block z [] = BitVec.ofNat 8 (block.length + 1) :: block := by
  simp only [cobsFrom, if_pos h]

/-- The end of the input right after a full block: no final block. -/
theorem cobsFrom_end_full : cobsFrom [] false [] = [] := by
  simp [cobsFrom]

/-- A zero closes the open block. -/
theorem cobsFrom_zero (block : Bytes) (z : Bool) (x : Bytes) :
    cobsFrom block z (delimiter :: x) = BitVec.ofNat 8 (block.length + 1) :: (block ++ cobsFrom [] true x) := by
  simp [cobsFrom]

/-- The 254th nonzero byte closes the open block with code 0xFF. -/
theorem cobsFrom_full {block : Bytes} {b : Byte} (z : Bool) (x : Bytes) (hb : b ≠ delimiter) (h : block.length = 253) :
    cobsFrom block z (b :: x) = 0xFF#8 :: (block ++ b :: cobsFrom [] false x) := by
  simp only [cobsFrom, if_neg hb, if_pos h]
  simp

/-- Any other nonzero byte joins the open block. -/
theorem cobsFrom_more {block : Bytes} {b : Byte} (z : Bool) (x : Bytes) (hb : b ≠ delimiter) (h : block.length ≠ 253) :
    cobsFrom block z (b :: x) = cobsFrom (block ++ [b]) z x := by
  simp only [cobsFrom, if_neg hb, if_neg h]

/-! ## COBS decoding, one lemma per exit of the loop of R140 -/

@[simp] theorem cobsBlocks_nil (n : Nat) : cobsBlocks n [] = .ok [] := by
  cases n <;> rfl

theorem cobsBlocks_last {n : Nat} {c : Byte} {rest : Bytes} (hc : c ≠ delimiter) (hz : delimiter ∉ rest)
    (hl : rest.length = c.toNat - 1) : cobsBlocks (n + 1) (c :: rest) = .ok rest := by
  have ht : rest.take (c.toNat - 1) = rest := by rw [← hl, List.take_length]
  simp only [cobsBlocks, if_neg hc, ht, if_neg hz, if_pos hl, if_neg (show ¬rest.length < c.toNat - 1 by omega)]

/-- A block with more input after it. -/
theorem cobsBlocks_more {n : Nat} {c : Byte} {block rest : Bytes} (hc : c ≠ delimiter) (hz : delimiter ∉ block)
    (hl : block.length = c.toNat - 1) (hr : rest ≠ []) :
    cobsBlocks (n + 1) (c :: (block ++ rest)) =
      (cobsBlocks n rest).map fun out => block ++ ((if c.toNat < 255 then [delimiter] else []) ++ out) := by
  have hpos : 0 < rest.length := List.length_pos_iff.mpr hr
  have ht : (block ++ rest).take (c.toNat - 1) = block := by simp [← hl]
  have hd : (block ++ rest).drop (c.toNat - 1) = rest := by simp [← hl]
  have h1 : ¬(block ++ rest).length < c.toNat - 1 := by simp; omega
  have h2 : ¬(block ++ rest).length = c.toNat - 1 := by simp; omega
  simp only [cobsBlocks, if_neg hc, ht, hd, if_neg hz, if_neg h1, if_neg h2]
  cases cobsBlocks n rest <;> rfl

/-! ## The terminator (R144) -/

@[simp] theorem stripTerminator_append (p : Bytes) : stripTerminator (p ++ [delimiter]) = p := by
  simp [stripTerminator]

theorem stripTerminator_of_last_ne {p : Bytes} (h : p.getLast? ≠ some delimiter) : stripTerminator p = p := by
  simp [stripTerminator, h]

end Sys2Proof.Machine
end

