-- ==== Sys2Proof/Laws/State.lean ====
section
/-! SUPPORT. What each update of the state does to each field: one lemma per field per update. -/

namespace Sys2Proof.Machine

/-! ## `setOvf` -/

@[simp] theorem setOvf_params (s : State) : (setOvf s).params = s.params := rfl
@[simp] theorem setOvf_rxbuf (s : State) : (setOvf s).rxbuf = s.rxbuf := rfl
@[simp] theorem setOvf_phase (s : State) : (setOvf s).phase = s.phase := rfl
@[simp] theorem setOvf_pend (s : State) : (setOvf s).pend = s.pend := rfl
@[simp] theorem setOvf_ovf (s : State) : (setOvf s).ovf = true := rfl
@[simp] theorem setOvf_inputs (s : State) : (setOvf s).inputs = s.inputs := rfl
@[simp] theorem setOvf_writeDraws (s : State) : (setOvf s).writeDraws = s.writeDraws := rfl
@[simp] theorem setOvf_writeDefault (s : State) : (setOvf s).writeDefault = s.writeDefault := rfl
@[simp] theorem setOvf_trace (s : State) : (setOvf s).trace = s.trace := rfl
@[simp] theorem setOvf_fed (s : State) : (setOvf s).fed = s.fed := rfl
@[simp] theorem setOvf_taken (s : State) : (setOvf s).taken = s.taken := rfl

/-! ## `observe` -/

@[simp] theorem observe_params (o : Obs) (s : State) : (observe o s).params = s.params := rfl
@[simp] theorem observe_rxbuf (o : Obs) (s : State) : (observe o s).rxbuf = s.rxbuf := rfl
@[simp] theorem observe_phase (o : Obs) (s : State) : (observe o s).phase = s.phase := rfl
@[simp] theorem observe_pend (o : Obs) (s : State) : (observe o s).pend = s.pend := rfl
@[simp] theorem observe_ovf (o : Obs) (s : State) : (observe o s).ovf = s.ovf := rfl
@[simp] theorem observe_inputs (o : Obs) (s : State) : (observe o s).inputs = s.inputs := rfl
@[simp] theorem observe_writeDraws (o : Obs) (s : State) : (observe o s).writeDraws = s.writeDraws := rfl
@[simp] theorem observe_writeDefault (o : Obs) (s : State) : (observe o s).writeDefault = s.writeDefault := rfl
@[simp] theorem observe_trace (o : Obs) (s : State) : (observe o s).trace = s.trace ++ [o] := rfl
@[simp] theorem observe_fed (o : Obs) (s : State) : (observe o s).fed = s.fed := rfl
@[simp] theorem observe_taken (o : Obs) (s : State) : (observe o s).taken = s.taken := rfl

/-! ## `rxTake` -/

@[simp] theorem rxTake_params (i : Nat) (s : State) : (rxTake i s).params = s.params := rfl
@[simp] theorem rxTake_rxbuf (i : Nat) (s : State) : (rxTake i s).rxbuf = s.rxbuf.drop (i + 1) := rfl
@[simp] theorem rxTake_phase (i : Nat) (s : State) : (rxTake i s).phase = s.phase := rfl
@[simp] theorem rxTake_pend (i : Nat) (s : State) : (rxTake i s).pend = s.pend := rfl
@[simp] theorem rxTake_ovf (i : Nat) (s : State) : (rxTake i s).ovf = s.ovf := rfl
@[simp] theorem rxTake_inputs (i : Nat) (s : State) : (rxTake i s).inputs = s.inputs := rfl
@[simp] theorem rxTake_writeDraws (i : Nat) (s : State) : (rxTake i s).writeDraws = s.writeDraws := rfl
@[simp] theorem rxTake_writeDefault (i : Nat) (s : State) : (rxTake i s).writeDefault = s.writeDefault := rfl
@[simp] theorem rxTake_trace (i : Nat) (s : State) : (rxTake i s).trace = s.trace := rfl
@[simp] theorem rxTake_fed (i : Nat) (s : State) : (rxTake i s).fed = s.fed := rfl
@[simp] theorem rxTake_taken (i : Nat) (s : State) : (rxTake i s).taken = s.taken ++ [s.rxbuf.take i] := rfl

/-! ## `rxAppend` -/

@[simp] theorem rxAppend_params (c : Bytes) (s : State) : (rxAppend c s).params = s.params := rfl
@[simp] theorem rxAppend_rxbuf (c : Bytes) (s : State) : (rxAppend c s).rxbuf = s.rxbuf ++ c := rfl
@[simp] theorem rxAppend_phase (c : Bytes) (s : State) : (rxAppend c s).phase = s.phase := rfl
@[simp] theorem rxAppend_pend (c : Bytes) (s : State) : (rxAppend c s).pend = s.pend := rfl
@[simp] theorem rxAppend_ovf (c : Bytes) (s : State) : (rxAppend c s).ovf = s.ovf := rfl
@[simp] theorem rxAppend_inputs (c : Bytes) (s : State) : (rxAppend c s).inputs = s.inputs := rfl
@[simp] theorem rxAppend_writeDraws (c : Bytes) (s : State) : (rxAppend c s).writeDraws = s.writeDraws := rfl
@[simp] theorem rxAppend_writeDefault (c : Bytes) (s : State) : (rxAppend c s).writeDefault = s.writeDefault := rfl
@[simp] theorem rxAppend_trace (c : Bytes) (s : State) : (rxAppend c s).trace = s.trace := rfl
@[simp] theorem rxAppend_fed (c : Bytes) (s : State) : (rxAppend c s).fed = s.fed ++ c := rfl
@[simp] theorem rxAppend_taken (c : Bytes) (s : State) : (rxAppend c s).taken = s.taken := rfl

/-! ## `complete` -/

@[simp] theorem complete_params (st : Status) (v : Word) (d : Bytes) (s : State) : (complete st v d s).params = s.params := rfl
@[simp] theorem complete_rxbuf (st : Status) (v : Word) (d : Bytes) (s : State) : (complete st v d s).rxbuf = s.rxbuf := rfl
@[simp] theorem complete_phase (st : Status) (v : Word) (d : Bytes) (s : State) : (complete st v d s).phase = .idle := rfl
@[simp] theorem complete_pend (st : Status) (v : Word) (d : Bytes) (s : State) : (complete st v d s).pend = .none := rfl
@[simp] theorem complete_ovf (st : Status) (v : Word) (d : Bytes) (s : State) : (complete st v d s).ovf = s.ovf := rfl
@[simp] theorem complete_inputs (st : Status) (v : Word) (d : Bytes) (s : State) : (complete st v d s).inputs = s.inputs := rfl
@[simp] theorem complete_writeDraws (st : Status) (v : Word) (d : Bytes) (s : State) : (complete st v d s).writeDraws = s.writeDraws := rfl
@[simp] theorem complete_writeDefault (st : Status) (v : Word) (d : Bytes) (s : State) : (complete st v d s).writeDefault = s.writeDefault := rfl
@[simp] theorem complete_trace (st : Status) (v : Word) (d : Bytes) (s : State) : (complete st v d s).trace = s.trace ++ [.completion ⟨st, v, d⟩] := rfl
@[simp] theorem complete_fed (st : Status) (v : Word) (d : Bytes) (s : State) : (complete st v d s).fed = s.fed := rfl
@[simp] theorem complete_taken (st : Status) (v : Word) (d : Bytes) (s : State) : (complete st v d s).taken = s.taken := rfl

/-! ## `raise` -/

@[simp] theorem raise_params (st : Status) (s : State) : (raise st s).params = s.params := rfl
@[simp] theorem raise_rxbuf (st : Status) (s : State) : (raise st s).rxbuf = s.rxbuf := rfl
@[simp] theorem raise_phase (st : Status) (s : State) : (raise st s).phase = .idle := rfl
@[simp] theorem raise_pend (st : Status) (s : State) : (raise st s).pend = .none := rfl
@[simp] theorem raise_ovf (st : Status) (s : State) : (raise st s).ovf = s.ovf := rfl
@[simp] theorem raise_inputs (st : Status) (s : State) : (raise st s).inputs = s.inputs := rfl
@[simp] theorem raise_writeDraws (st : Status) (s : State) : (raise st s).writeDraws = s.writeDraws := rfl
@[simp] theorem raise_writeDefault (st : Status) (s : State) : (raise st s).writeDefault = s.writeDefault := rfl
@[simp] theorem raise_trace (st : Status) (s : State) : (raise st s).trace = s.trace ++ [.completion ⟨st, 0, []⟩] := rfl
@[simp] theorem raise_fed (st : Status) (s : State) : (raise st s).fed = s.fed := rfl
@[simp] theorem raise_taken (st : Status) (s : State) : (raise st s).taken = s.taken := rfl

/-! ## `beginFetch` -/

@[simp] theorem beginFetch_params (k : Pend) (s : State) : (beginFetch k s).params = s.params := rfl
@[simp] theorem beginFetch_rxbuf (k : Pend) (s : State) : (beginFetch k s).rxbuf = s.rxbuf := rfl
@[simp] theorem beginFetch_phase (k : Pend) (s : State) : (beginFetch k s).phase = .fetchWait := rfl
@[simp] theorem beginFetch_pend (k : Pend) (s : State) : (beginFetch k s).pend = k := rfl
@[simp] theorem beginFetch_ovf (k : Pend) (s : State) : (beginFetch k s).ovf = s.ovf := rfl
@[simp] theorem beginFetch_inputs (k : Pend) (s : State) : (beginFetch k s).inputs = s.inputs := rfl
@[simp] theorem beginFetch_writeDraws (k : Pend) (s : State) : (beginFetch k s).writeDraws = s.writeDraws := rfl
@[simp] theorem beginFetch_writeDefault (k : Pend) (s : State) : (beginFetch k s).writeDefault = s.writeDefault := rfl
@[simp] theorem beginFetch_trace (k : Pend) (s : State) : (beginFetch k s).trace = s.trace ++ [.readIssued s.params.readMax] := rfl
@[simp] theorem beginFetch_fed (k : Pend) (s : State) : (beginFetch k s).fed = s.fed := rfl
@[simp] theorem beginFetch_taken (k : Pend) (s : State) : (beginFetch k s).taken = s.taken := rfl

/-! ## `transportWrite` -/

@[simp] theorem transportWrite_params (w : Bytes) (s : State) : (transportWrite w s).params = s.params := rfl
@[simp] theorem transportWrite_rxbuf (w : Bytes) (s : State) : (transportWrite w s).rxbuf = s.rxbuf := rfl
@[simp] theorem transportWrite_phase (w : Bytes) (s : State) : (transportWrite w s).phase = s.phase := rfl
@[simp] theorem transportWrite_pend (w : Bytes) (s : State) : (transportWrite w s).pend = s.pend := rfl
@[simp] theorem transportWrite_ovf (w : Bytes) (s : State) : (transportWrite w s).ovf = s.ovf := rfl
@[simp] theorem transportWrite_inputs (w : Bytes) (s : State) : (transportWrite w s).inputs = s.inputs := rfl
@[simp] theorem transportWrite_writeDraws (w : Bytes) (s : State) : (transportWrite w s).writeDraws = s.writeDraws.tail := rfl
@[simp] theorem transportWrite_writeDefault (w : Bytes) (s : State) : (transportWrite w s).writeDefault = s.writeDefault := rfl
@[simp] theorem transportWrite_trace (w : Bytes) (s : State) : (transportWrite w s).trace = s.trace ++ [.write w (writeAnswer w s)] := rfl
@[simp] theorem transportWrite_fed (w : Bytes) (s : State) : (transportWrite w s).fed = s.fed := rfl
@[simp] theorem transportWrite_taken (w : Bytes) (s : State) : (transportWrite w s).taken = s.taken := rfl

/-! ## `resetEngine` -/

@[simp] theorem resetEngine_params (s : State) : (resetEngine s).params = s.params := rfl
@[simp] theorem resetEngine_rxbuf (s : State) : (resetEngine s).rxbuf = [] := rfl
@[simp] theorem resetEngine_phase (s : State) : (resetEngine s).phase = .idle := rfl
@[simp] theorem resetEngine_pend (s : State) : (resetEngine s).pend = .none := rfl
@[simp] theorem resetEngine_ovf (s : State) : (resetEngine s).ovf = false := rfl
@[simp] theorem resetEngine_inputs (s : State) : (resetEngine s).inputs = s.inputs := rfl
@[simp] theorem resetEngine_writeDraws (s : State) : (resetEngine s).writeDraws = s.writeDraws := rfl
@[simp] theorem resetEngine_writeDefault (s : State) : (resetEngine s).writeDefault = s.writeDefault := rfl
@[simp] theorem resetEngine_trace (s : State) : (resetEngine s).trace = s.trace := rfl
@[simp] theorem resetEngine_fed (s : State) : (resetEngine s).fed = [] := rfl
@[simp] theorem resetEngine_taken (s : State) : (resetEngine s).taken = [] := rfl

/-! ## `present` -/

@[simp] theorem present_params (tx : Transaction) (s : State) : (present tx s).params = s.params := rfl
@[simp] theorem present_rxbuf (tx : Transaction) (s : State) : (present tx s).rxbuf = s.rxbuf := rfl
@[simp] theorem present_phase (tx : Transaction) (s : State) : (present tx s).phase = s.phase := rfl
@[simp] theorem present_pend (tx : Transaction) (s : State) : (present tx s).pend = s.pend := rfl
@[simp] theorem present_ovf (tx : Transaction) (s : State) : (present tx s).ovf = s.ovf := rfl
@[simp] theorem present_inputs (tx : Transaction) (s : State) : (present tx s).inputs = .command tx :: s.inputs := rfl
@[simp] theorem present_writeDraws (tx : Transaction) (s : State) : (present tx s).writeDraws = s.writeDraws := rfl
@[simp] theorem present_writeDefault (tx : Transaction) (s : State) : (present tx s).writeDefault = s.writeDefault := rfl
@[simp] theorem present_trace (tx : Transaction) (s : State) : (present tx s).trace = s.trace := rfl
@[simp] theorem present_fed (tx : Transaction) (s : State) : (present tx s).fed = s.fed := rfl
@[simp] theorem present_taken (tx : Transaction) (s : State) : (present tx s).taken = s.taken := rfl

end Sys2Proof.Machine
end

