-- ==== Sys2Proof/Laws/Ops.lean ====
section
/-! SUPPORT. What each shared operation can do, said once. -/

namespace Sys2Proof.Machine

/-! ## The delimiter search (R21) -/

theorem find0_eq_none (s : Bytes) : find0 s = none ↔ delimiter ∉ s := by
  induction s with
  | nil => simp [find0]
  | cons b bs ih =>
    by_cases h : b = delimiter
    · simp [find0, h]
    · simp [find0, h, ih, Ne.symm h]

/-- The bytes before the index found are the packet, and hold no delimiter. -/
theorem find0_eq_some {s : Bytes} {i : Nat} (h : find0 s = some i) :
    s = s.take i ++ delimiter :: s.drop (i + 1) ∧ delimiter ∉ s.take i := by
  induction s generalizing i with
  | nil => simp [find0] at h
  | cons b bs ih =>
    by_cases hb : b = delimiter
    · obtain rfl : 0 = i := by simpa [find0, hb] using h
      simp [hb]
    · obtain ⟨j, hj, rfl⟩ : ∃ j, find0 bs = some j ∧ j + 1 = i := by simpa [find0, hb] using h
      obtain ⟨h1, h2⟩ := ih hj
      exact ⟨by simpa using h1, by simpa [Ne.symm hb] using h2⟩

/-- A packet followed by a delimiter is found at the packet's length. -/
theorem find0_packet {p : Bytes} (rest : Bytes) (h : delimiter ∉ p) :
    find0 (p ++ delimiter :: rest) = some p.length := by
  induction p with
  | nil => simp [find0]
  | cons b bs ih =>
    obtain ⟨hb, hbs⟩ : ¬delimiter = b ∧ delimiter ∉ bs := by simpa using h
    simp [find0, Ne.symm hb, ih hbs]

/-! ## `RxFind` and `RxTake` together -/

theorem rxFind_none {s : State} : rxFind s = none ↔ delimiter ∉ s.rxbuf := find0_eq_none _

/-- Everything a hit says: the packet, its delimiter, and what is left. -/
theorem rxFind_some {s : State} {i : Nat} (h : rxFind s = some i) :
    s.rxbuf = rxPacket i s ++ delimiter :: (rxTake i s).rxbuf ∧ delimiter ∉ rxPacket i s :=
  find0_eq_some h

/-- With a packet at the front of `RXBUF`, the search finds it and the take removes it. -/
theorem rxFind_packet {s : State} {p rest : Bytes} (hs : s.rxbuf = p ++ delimiter :: rest)
    (hp : delimiter ∉ p) :
    rxFind s = some p.length ∧ rxPacket p.length s = p ∧
      rxTake p.length s = { s with rxbuf := rest, taken := s.taken ++ [p] } := by
  refine ⟨by rw [rxFind, hs, find0_packet rest hp], by simp [rxPacket, hs], ?_⟩
  simp [rxTake, rxPacket, hs]

/-! ## Overflow (R177) -/

theorem overflows_iff (p : Params) (a n : Nat) :
    overflows p a n = true ↔ ∃ cap, p.rxCap = some cap ∧ cap < a + n := by
  unfold overflows
  split <;> simp_all

theorem overflows_eq_false (p : Params) (a n : Nat) :
    overflows p a n = false ↔ ∀ cap, p.rxCap = some cap → a + n ≤ cap := by
  unfold overflows
  split <;> simp_all

/-! ## Acceptance of a command (R31, R235) -/

theorem whenIdle_idle {s : State} (h : s.phase = .idle) (r : Result) : whenIdle s r = r := by
  simp [whenIdle, h]

theorem whenIdle_fetchWait {s : State} (h : s.phase = .fetchWait) (r : Result) :
    whenIdle s r = .refused .commandDuringFetch := by
  simp [whenIdle, h]

theorem whenIdle_next {s t : State} {r : Result} (h : whenIdle s r = .next t) : s.phase = .idle ∧ r = .next t := by
  unfold whenIdle at h
  split at h
  · exact ⟨by assumption, h⟩
  · cases h

/-! ## The transport write (R23, R65) -/

theorem writeAnswer_wok {s : State} (w : Bytes) (h : nextWriteDraw s = .wok) : writeAnswer w s = .wok := by
  simp [writeAnswer, writeAnswerWithin, h]

theorem writeAnswer_werr {s : State} {k : Nat} (w : Bytes) (h : nextWriteDraw s = .werr k) :
    writeAnswer w s = .werr (min k w.length) := by
  simp [writeAnswer, writeAnswerWithin, h]

/-- Every draw, folded into the law of R65, is an answer the transport can give to a write of `w`. -/
theorem writeAnswer_cases (w : Bytes) (s : State) :
    writeAnswer w s = .wok ∨ ∃ k, k ≤ w.length ∧ writeAnswer w s = .werr k := by
  unfold writeAnswer writeAnswerWithin
  split
  · exact .inl rfl
  · exact .inr ⟨_, Nat.min_le_right _ _, rfl⟩

/-! ## Completion of READ_FRAME (R180, R181) -/

/-- A taken packet is either decoded and returned, or dropped with ABSENT. -/
theorem finishReadFrame_cases (p : Bytes) (s : State) :
    (∃ f, decodeFrame p = .ok f ∧ finishReadFrame p s = complete .ok (typeRval f.type) f.data s) ∨
      (∃ k, decodeFrame p = .error k ∧ finishReadFrame p s = raise .absent s) := by
  unfold finishReadFrame
  cases h : decodeFrame p with
  | error k => exact .inr ⟨k, rfl, rfl⟩
  | ok f => exact .inl ⟨f, rfl, rfl⟩

/-- The waiting command completes with the packet found. -/
theorem finishFetch_next {k : Pend} {i : Nat} {s t : State} (h : finishFetch k i s = .next t) :
    (k = .extract ∧ t = finishExtract (rxPacket i s) (rxTake i s)) ∨
      (k = .readFrame ∧ t = finishReadFrame (rxPacket i s) (rxTake i s)) := by
  cases k with
  | none => cases h
  | extract => exact .inl ⟨rfl, by cases h; rfl⟩
  | readFrame => exact .inr ⟨rfl, by cases h; rfl⟩

/-! ## The answer step (R175) -/

/-- What a chunk leads to, if it leads to a next state: overflow, no packet, or the waiting command's completion. -/
theorem takeChunk_next {k : Pend} {c : Bytes} {s t : State} (h : takeChunk k c s = .next t) :
    (overflows s.params s.rxbuf.length c.length = true ∧ t = raise .rxOverflow (setOvf s)) ∨
      (overflows s.params s.rxbuf.length c.length = false ∧ delimiter ∉ s.rxbuf ++ c ∧
        t = raise .absent (rxAppend c s)) ∨
      (overflows s.params s.rxbuf.length c.length = false ∧
        ∃ i, rxFind (rxAppend c s) = some i ∧ finishFetch k i (rxAppend c s) = .next t) := by
  unfold takeChunk at h
  cases ho : overflows s.params s.rxbuf.length c.length with
  | true => exact .inl ⟨rfl, by simpa [ho] using h.symm⟩
  | false =>
    cases hf : rxFind (rxAppend c s) with
    | none => exact .inr (.inl ⟨rfl, rxFind_none.mp hf, by simpa [ho, hf] using h.symm⟩)
    | some i => exact .inr (.inr ⟨rfl, i, rfl, by simpa [ho, hf] using h⟩)

/-- What an answer leads to, if it leads to a next state. -/
theorem answerStep_next {a : ReadAnswer} {s t : State} (h : answerStep a s = .next t) :
    (a = .ioerr ∧ t = raise .transportError (observe (.readAnswered .ioerr) s)) ∨
      ∃ c, a = .chunk c ∧ c.length ≤ s.params.readMax ∧
        takeChunk s.pend c (observe (.readAnswered (.chunk c)) { s with pend := .none }) = .next t := by
  cases a with
  | ioerr => exact .inl ⟨rfl, by cases h; rfl⟩
  | chunk c =>
    refine .inr ⟨c, rfl, ?_⟩
    simp only [answerStep] at h
    split at h
    · cases h
    · exact ⟨by omega, h⟩

/-! ## Events and the step (R189) -/

theorem step_no_input {s : State} (h : s.inputs = []) : step s = .next s := by
  simp [step, takeEvent, h]

theorem step_event {s : State} {e : Event} {rest : List Event} (h : s.inputs = e :: rest) :
    step s = deliver e { s with inputs := rest } := by
  simp [step, takeEvent, h]

/-- What a command transaction leads to, if it leads to a next state: it arrived in `IDLE`, and it was illegal or ran. -/
theorem issueCommand_next {tx : Transaction} {s t : State} (h : issueCommand tx s = .next t) :
    s.phase = .idle ∧
      ((∃ why, decode s.params tx = .illegal why ∧ t = raise .illegalCommand s) ∨
        ∃ i, decode s.params tx = .command i ∧ exec i s = .next t) := by
  obtain ⟨hi, h⟩ := whenIdle_next h
  refine ⟨hi, ?_⟩
  cases hd : decode s.params tx with
  | illegal why => exact .inl ⟨why, rfl, by simpa [hd] using h.symm⟩
  | command i => exact .inr ⟨i, rfl, by simpa [hd] using h⟩

/-- Everything a step can do, if it answers a next state: one case per row group of R189. -/
theorem step_next {s t : State} (h : step s = .next t) :
    (s.inputs = [] ∧ t = s) ∨
      ∃ e rest, s.inputs = e :: rest ∧
        ((∃ tx, e = .command tx ∧ issueCommand tx { s with inputs := rest } = .next t) ∨
          (∃ a, e = .answer a ∧ s.phase = .fetchWait ∧ answerStep a { s with inputs := rest } = .next t) ∨
          (∃ a, e = .answer a ∧ s.phase = .idle ∧ t = { s with inputs := rest }) ∨
          (∃ a, e = .lateAnswer a ∧ t = { s with inputs := rest }) ∨
          (e = .reset ∧ t = resetEngine { s with inputs := rest })) := by
  cases hin : s.inputs with
  | nil => exact .inl ⟨rfl, by simpa [step_no_input hin] using h.symm⟩
  | cons e rest =>
    refine .inr ⟨e, rest, rfl, ?_⟩
    rw [step_event hin] at h
    cases e with
    | command tx => exact .inl ⟨tx, rfl, h⟩
    | answer a =>
      cases hp : s.phase with
      | idle => exact .inr (.inr (.inl ⟨a, rfl, rfl, by simpa [deliver, deliverAnswer, hp] using h.symm⟩))
      | fetchWait => exact .inr (.inl ⟨a, rfl, rfl, by simpa [deliver, deliverAnswer, hp] using h⟩)
    | lateAnswer a => exact .inr (.inr (.inr (.inl ⟨a, rfl, by simpa [deliver] using h.symm⟩)))
    | reset => exact .inr (.inr (.inr (.inr ⟨rfl, by simpa [deliver] using h.symm⟩)))

/-! ## The commands, inverted -/

theorem execCrc32_next {din : Bytes} {s t : State} (h : execCrc32 din s = .next t) :
    s.phase = .idle ∧ t = complete .ok (crc32 din) [] s := by
  obtain ⟨hi, h⟩ := whenIdle_next h
  exact ⟨hi, by cases h; rfl⟩

theorem execEncode_next {type : Half} {din : Bytes} {s t : State} (h : execEncode type din s = .next t) :
    s.phase = .idle ∧
      ((payloadTooLong din = true ∧ t = raise .invalidLength s) ∨
        (payloadTooLong din = false ∧ t = complete .ok 0 (wire ⟨type, din⟩) s)) := by
  obtain ⟨hi, h⟩ := whenIdle_next h
  refine ⟨hi, ?_⟩
  cases hp : payloadTooLong din with
  | true => exact .inl ⟨rfl, by simpa [hp] using h.symm⟩
  | false => exact .inr ⟨rfl, by simpa [hp] using h.symm⟩

theorem execDecode_next {din : Bytes} {s t : State} (h : execDecode din s = .next t) :
    s.phase = .idle ∧
      ((∃ k, decodeFrame din = .error k ∧ t = raise (kindStatus k) s) ∨
        ∃ f, decodeFrame din = .ok f ∧ t = complete .ok (typeRval f.type) f.data s) := by
  obtain ⟨hi, h⟩ := whenIdle_next h
  refine ⟨hi, ?_⟩
  cases hd : decodeFrame din with
  | error k => exact .inl ⟨k, rfl, by simpa [hd] using h.symm⟩
  | ok f => exact .inr ⟨f, rfl, by simpa [hd] using h.symm⟩

theorem execSend_next {type : Half} {din : Bytes} {s t : State} (h : execSend type din s = .next t) :
    s.phase = .idle ∧
      ((payloadTooLong din = true ∧ t = raise .invalidLength s) ∨
        (payloadTooLong din = false ∧ writeAnswer (wire ⟨type, din⟩) s = .wok ∧
          t = complete .ok 0 [] (transportWrite (wire ⟨type, din⟩) s)) ∨
        (payloadTooLong din = false ∧ (∃ k, writeAnswer (wire ⟨type, din⟩) s = .werr k) ∧
          t = raise .transportError (transportWrite (wire ⟨type, din⟩) s))) := by
  obtain ⟨hi, h⟩ := whenIdle_next h
  refine ⟨hi, ?_⟩
  cases hp : payloadTooLong din with
  | true => exact .inl ⟨rfl, by simpa [hp] using h.symm⟩
  | false =>
    cases hw : writeAnswer (wire ⟨type, din⟩) s with
    | wok => exact .inr (.inl ⟨rfl, rfl, by simpa [hp, hw] using h.symm⟩)
    | werr k => exact .inr (.inr ⟨rfl, ⟨k, rfl⟩, by simpa [hp, hw] using h.symm⟩)

theorem execExtract_next {fetch : Bool} {s t : State} (h : execExtract fetch s = .next t) :
    s.phase = .idle ∧
      ((∃ i, rxFind s = some i ∧ t = finishExtract (rxPacket i s) (rxTake i s)) ∨
        (rxFind s = none ∧ fetch = true ∧ t = beginFetch .extract s) ∨
        (rxFind s = none ∧ fetch = false ∧ t = raise .absent s)) := by
  obtain ⟨hi, h⟩ := whenIdle_next h
  refine ⟨hi, ?_⟩
  cases hf : rxFind s with
  | some i => exact .inl ⟨i, rfl, by simpa [hf] using h.symm⟩
  | none =>
    cases fetch with
    | true => exact .inr (.inl ⟨rfl, rfl, by simpa [hf] using h.symm⟩)
    | false => exact .inr (.inr ⟨rfl, rfl, by simpa [hf] using h.symm⟩)

theorem execReadFrame_next {s t : State} (h : execReadFrame s = .next t) :
    s.phase = .idle ∧
      ((∃ i, rxFind s = some i ∧ t = finishReadFrame (rxPacket i s) (rxTake i s)) ∨
        (rxFind s = none ∧ t = beginFetch .readFrame s)) := by
  obtain ⟨hi, h⟩ := whenIdle_next h
  refine ⟨hi, ?_⟩
  cases hf : rxFind s with
  | some i => exact .inl ⟨i, rfl, by simpa [hf] using h.symm⟩
  | none => exact .inr ⟨rfl, by simpa [hf] using h.symm⟩

end Sys2Proof.Machine
end

