-- ==== Sys2Proof/Laws/PerInstr.lean ====
section
/-! SUPPORT. Statements for every command, one lemma per constructor. -/

namespace Sys2Proof.Laws

/-- The operation of a command. -/
def opcodeOf (i : Instr) : Opcode :=
  match i with
  | .crc32 _ => .crc32
  | .encode _ _ => .encode
  | .decode _ => .decode
  | .send _ _ => .send
  | .extract _ => .extract
  | .readFrame => .readFrame

/-- The `TYPE` a command carries (R75). -/
def typeOf (i : Instr) : Half :=
  match i with
  | .encode type _ => type
  | .send type _ => type
  | .crc32 _ => 0
  | .decode _ => 0
  | .extract _ => 0
  | .readFrame => 0

/-- The `F` a command carries (R73). -/
def fetchOf (i : Instr) : Bool :=
  match i with
  | .extract fetch => fetch
  | .crc32 _ => false
  | .encode _ _ => false
  | .decode _ => false
  | .send _ _ => false
  | .readFrame => false

/-- The fields of R71 in a command word made of them. -/
theorem fields_cmdWord (type : Half) (fetch : Bool) (opc : BitVec 8) :
    opcField (cmdWord type fetch opc) = opc ∧ rsvField (cmdWord type fetch opc) = 0 ∧
      fetchField (cmdWord type fetch opc) = fetch ∧ typeField (cmdWord type fetch opc) = type := by
  refine ⟨?_, ?_, ?_, ?_⟩ <;> try (apply BitVec.eq_of_getLsbD_eq; intro i hi)
  · simp [opcField, cmdWord, hi, show i < 16 by omega, show i < 32 by omega]
  · have h8 : 9 + i - 8 ≠ 0 := by omega
    simp [rsvField, cmdWord, hi, show 9 + i < 16 by omega, h8, BitVec.getLsbD_of_ge opc (9 + i) (by omega)]
  · simp [fetchField, cmdWord]
  · have h8 : 16 + i - 8 ≠ 0 := by omega
    simp [typeField, cmdWord, hi, show 16 + i < 32 by omega, h8,
      BitVec.getLsbD_of_ge opc (16 + i) (by omega)]

/-- The fields of a command's word are its opcode, its type and its fetch flag, and `RSV = 0` (R71, R77). -/
def EncodedFields.Statement (i : Instr) : Prop :=
  opcField (encode i).cmd = (opcodeOf i).code ∧ rsvField (encode i).cmd = 0 ∧
    fetchField (encode i).cmd = fetchOf i ∧ typeField (encode i).cmd = typeOf i

theorem EncodedFields.crc32 (din : Bytes) : EncodedFields.Statement (.crc32 din) := fields_cmdWord _ _ _

theorem EncodedFields.encode (type : Half) (din : Bytes) : EncodedFields.Statement (.encode type din) :=
  fields_cmdWord _ _ _

theorem EncodedFields.decode (din : Bytes) : EncodedFields.Statement (.decode din) := fields_cmdWord _ _ _

theorem EncodedFields.send (type : Half) (din : Bytes) : EncodedFields.Statement (.send type din) :=
  fields_cmdWord _ _ _

theorem EncodedFields.extract (fetch : Bool) : EncodedFields.Statement (.extract fetch) := fields_cmdWord _ _ _

theorem EncodedFields.readFrame : EncodedFields.Statement .readFrame := fields_cmdWord _ _ _

end Sys2Proof.Laws
end

