-- ==== Sys2Proof/Laws/ReadFrames.lean ====
section
/-! SUPPORT. What a step of READ_FRAMES does with an outcome of the machine, case by case. -/

namespace Sys2Proof.Machine

theorem hostObserves_completion {r : ReadFrames} {m : State} {c : Completion} (h : newCompletion r.machine m = some c) :
    hostObserves r (.next m) = .next (hostTakes c { r with machine := m }) := by
  simp [hostObserves, h]

theorem hostObserves_none {r : ReadFrames} {m : State} (h : newCompletion r.machine m = none) :
    hostObserves r (.next m) = .next { r with machine := m, phase := hostWaits r.machine m } := by
  simp [hostObserves, h]

/-- What a step of the machine can lead READ_FRAMES to. -/
theorem hostObserves_next {r r' : ReadFrames} {res : Result} (h : hostObserves r res = .next r') :
    ∃ m, res = .next m ∧
      ((∃ c, newCompletion r.machine m = some c ∧ r' = hostTakes c { r with machine := m }) ∨
        (newCompletion r.machine m = none ∧ r' = { r with machine := m, phase := hostWaits r.machine m })) := by
  cases res with
  | next m =>
    refine ⟨m, rfl, ?_⟩
    cases hc : newCompletion r.machine m with
    | some c => exact .inl ⟨c, rfl, by rw [hostObserves_completion hc] at h; cases h; rfl⟩
    | none => exact .inr ⟨rfl, by rw [hostObserves_none hc] at h; cases h; rfl⟩
  | fault e => cases h
  | refused e => cases h

/-- A READ_FRAME in progress after the step is waited for. -/
theorem hostWaits_fetchWait {before after : State} (h : after.phase = .fetchWait) : hostWaits before after = .waiting := by
  simp [hostWaits, h]

/-- A fetch that has gone without a completion was aborted (R231). -/
theorem hostWaits_aborted {before after : State} (hb : before.phase = .fetchWait) (ha : after.phase = .idle) :
    hostWaits before after = .aborted := by
  simp [hostWaits, hb, ha]

theorem hostWaits_idle {before after : State} (h : before.phase = .idle) : hostWaits before after = .waiting := by
  simp [hostWaits, h]

/-- An aborted READ_FRAMES changes in its machine alone. -/
theorem hostIgnores_next {r r' : ReadFrames} {res : Result} (h : hostIgnores r res = .next r') :
    ∃ m, res = .next m ∧ r' = { r with machine := m } := by
  cases res with
  | next m => exact ⟨m, rfl, by cases h; rfl⟩
  | fault e => cases h
  | refused e => cases h

end Sys2Proof.Machine
end

