-- ==== Sys2Proof/Laws/Safety.lean ====
section
/-! SUPPORT. What the terms of the statements say, case by case. -/

namespace Sys2Proof.Safety

open Sys2Proof.Machine

/-! ## `answeredChunk` -/

@[simp] theorem answeredChunk_idle {s : State} (h : s.phase = .idle) : answeredChunk s = [] := by
  simp [answeredChunk, h]

theorem answeredChunk_chunk {s : State} {c : Bytes} {rest : List Event} (h : s.phase = .fetchWait)
    (hi : s.inputs = .answer (.chunk c) :: rest) : answeredChunk s = c := by
  simp [answeredChunk, h, hi]

theorem answeredChunk_ioerr {s : State} {rest : List Event} (hi : s.inputs = .answer .ioerr :: rest) :
    answeredChunk s = [] := by
  unfold answeredChunk
  split <;> simp_all

/-! ## `delimited` (R190) -/

@[simp] theorem delimited_nil : delimited [] = [] := rfl

@[simp] theorem delimited_cons (p : Bytes) (ps : List Bytes) : delimited (p :: ps) = p ++ delimiter :: delimited ps := rfl

@[simp] theorem delimited_append (ps qs : List Bytes) : delimited (ps ++ qs) = delimited ps ++ delimited qs := by
  induction ps with
  | nil => rfl
  | cons p ps ih => simp [ih]

/-! ## `completions` and `readsIssued` -/

@[simp] theorem completions_append (as bs : List Obs) : completions (as ++ bs) = completions as ++ completions bs := by
  induction as with
  | nil => rfl
  | cons a as ih => cases a <;> simp [completions, ih]

@[simp] theorem readsIssued_append (as bs : List Obs) : readsIssued (as ++ bs) = readsIssued as + readsIssued bs := by
  induction as with
  | nil => simp [readsIssued]
  | cons a as ih => cases a <;> simp [readsIssued, ih, Nat.add_right_comm]

end Sys2Proof.Safety
end

