-- ==== Sys2Proof/Tests/Slice0.lean ====
section
/-! SUPPORT. The model's tests. Expected values are those of 95_test_vectors.md, or are written out from the rule a test names.
A theorem `witness_<Statement>...` shows values that meet the hypotheses of that obligation. -/

namespace Sys2Proof.Tests

open Sys2Proof.Machine Sys2Proof.Safety

/-! ## Small states -/

/-- A build with small bounds: `READ_MAX = 64`, `RX_CAP = 40`, `DIN_MAX = MAX_WIRE`. -/
def build : Params := { readMax := 64, rxCap := some 40, dinMax := some 65803 }

/-- A machine in IDLE with a buffer and events still to come. -/
def idle (rxbuf : Bytes) (inputs : List Event) : State :=
  { params := build, rxbuf := rxbuf, phase := .idle, pend := .none, ovf := false, inputs := inputs, writeDraws := [],
    writeDefault := .wok, trace := [], fed := rxbuf, taken := [] }

/-- A machine that waits for the answer to a read. -/
def waiting (k : Pend) (rxbuf : Bytes) (inputs : List Event) : State :=
  { idle rxbuf inputs with phase := .fetchWait, pend := k }

/-- The last completion of a trace. -/
def lastCompletion (os : List Obs) : Option Completion := (completions os).getLast?

/-- What a step shows a test: the last completion, and the buffer it leaves. -/
def seen (r : Result) : Option (Option Completion × Bytes) :=
  match r with
  | .next s => some (lastCompletion s.trace, s.rxbuf)
  | .fault _ => none
  | .refused _ => none

/-- The state elements after a step. -/
def elementsAfter (r : Result) : Option Elements :=
  match r with
  | .next s => some (elements s)
  | .fault _ => none
  | .refused _ => none

/-- The observations after a step. -/
def shown (r : Result) : Option (List Obs) :=
  match r with
  | .next s => some s.trace
  | .fault _ => none
  | .refused _ => none

/-- `wire(1, a"x")` (95_test_vectors.md 1.1). -/
def wireX : Bytes := [0x02, 0x01, 0x02, 0x01, 0x06, 0x78, 0x94, 0x4D, 0x5E, 0xA4, 0x00]

/-- `wire(3, [])` (95_test_vectors.md 1.2). -/
def wireEmpty : Bytes := [0x02, 0x03, 0x01, 0x01, 0x05, 0xF2, 0x70, 0xF1, 0x33, 0x00]

/-- A corrupted `wire(2, a"hello")` without its terminator (95_test_vectors.md 2.5). -/
def badCrc : Bytes := [0x02, 0x02, 0x02, 0x05, 0x0A, 0x48, 0x65, 0x6C, 0x6C, 0x6F, 0x14, 0x42, 0xF5, 0x6A]

/-- The frame `(1, a"x")`. -/
def frameX : Frame := ⟨1, [0x78]⟩

/-- The frame `(3, [])`. -/
def frameEmpty : Frame := ⟨3, []⟩

/-- `n` bytes `0x41`. -/
def manyA (n : Nat) : Bytes := List.replicate n 0x41#8

theorem manyA_length (n : Nat) : (manyA n).length = n := by simp [manyA]

theorem manyA_noDelimiter (n : Nat) : delimiter ∉ manyA n := by
  simp [manyA, List.mem_replicate, show delimiter ≠ 0x41#8 by decide]

theorem inv_idle {rxbuf : Bytes} {inputs : List Event} (h : rxbuf.length ≤ 40) : Inv (idle rxbuf inputs) where
  params := show build.wellFormed = true by decide
  pend := by simp [idle]
  waiting := by simp [idle]
  cap := by simp [WithinCap, idle, build, h]
  ovf := by simp [idle]
  conserved := by simp [idle]
  packets := by simp [idle]

theorem inv_waiting {k : Pend} {rxbuf : Bytes} {inputs : List Event} (hk : k ≠ .none) (h : rxbuf.length ≤ 40)
    (hz : delimiter ∉ rxbuf) : Inv (waiting k rxbuf inputs) where
  params := (inv_idle (inputs := []) h).params
  pend := by simp [waiting, hk]
  waiting := fun _ => hz
  cap := (inv_idle (inputs := []) h).cap
  ovf := by simp [waiting, idle]
  conserved := by simp [waiting, idle]
  packets := by simp [waiting, idle]

/-! ## WellFormed: an ill-formed term for each check -/

theorem test_crc32_over_dinMax_is_refused : Instr.wellFormed build (.crc32 (manyA 65804)) = false := by
  simp [Instr.wellFormed, Params.dinFits, build, manyA_length]

theorem test_encode_over_dinMax_is_refused : Instr.wellFormed build (.encode 0 (manyA 65804)) = false := by
  simp [Instr.wellFormed, Params.dinFits, build, manyA_length]

theorem test_decode_over_dinMax_is_refused : Instr.wellFormed build (.decode (manyA 65804)) = false := by
  simp [Instr.wellFormed, Params.dinFits, build, manyA_length]

theorem test_send_over_dinMax_is_refused : Instr.wellFormed build (.send 0 (manyA 65804)) = false := by
  simp [Instr.wellFormed, Params.dinFits, build, manyA_length]

theorem test_frame_over_maxPayload_is_refused : Frame.wellFormed ⟨0, manyA 65536⟩ = false := by
  simp [Frame.wellFormed, Config.maxPayload, manyA_length]

theorem test_readMax_zero_is_refused : Params.wellFormed ⟨0, none, none⟩ = false := by decide

theorem test_dinMax_under_maxWire_is_refused : Params.wellFormed ⟨1, none, some 65802⟩ = false := by decide

/-! ## Decode: the words of R71 and R77 bit by bit, TYPE, RSV, F, OPC -/

theorem test_decode_crc32_word :
    decode build ⟨0b0000000000000000_0000000_0_00000001#32, [0x31]⟩ = .command (.crc32 [0x31]) := by decide

theorem test_decode_encode_word :
    decode build ⟨0b1000000000000001_0000000_0_00000010#32, [0x78]⟩ = .command (.encode 0x8001#16 [0x78]) := by decide

theorem test_decode_decode_word :
    decode build ⟨0b0000000000000000_0000000_0_00000011#32, [0x02]⟩ = .command (.decode [0x02]) := by decide

theorem test_decode_send_word :
    decode build ⟨0b0100000000000010_0000000_0_00000100#32, []⟩ = .command (.send 0x4002#16 []) := by decide

theorem test_decode_extract_word :
    decode build ⟨0b0000000000000000_0000000_0_00000101#32, []⟩ = .command (.extract false) := by decide

theorem test_decode_extract_fetch_word :
    decode build ⟨0b0000000000000000_0000000_1_00000101#32, []⟩ = .command (.extract true) := by decide

theorem test_decode_readFrame_word :
    decode build ⟨0b0000000000000000_0000000_0_00000110#32, []⟩ = .command .readFrame := by decide

/-- 95_test_vectors.md 2.9. -/
theorem test_illegal_opcodes :
    decode build ⟨0x00000000#32, []⟩ = .illegal (.reservedOpcode 0x00#8) ∧
    decode build ⟨0x00000007#32, []⟩ = .illegal (.reservedOpcode 0x07#8) ∧
    decode build ⟨0x000000FF#32, []⟩ = .illegal (.reservedOpcode 0xFF#8) := by decide

/-- 95_test_vectors.md 2.9. -/
theorem test_illegal_fields :
    decode build ⟨0x00000201#32, []⟩ = .illegal .reservedBits ∧
    decode build ⟨0x00000106#32, []⟩ = .illegal .fetchOutsideExtract ∧
    decode build ⟨0x00000101#32, []⟩ = .illegal .fetchOutsideExtract ∧
    decode build ⟨0x00010003#32, [0x02, 0x01]⟩ = .illegal .typeOutsideEncodeSend ∧
    decode build ⟨0x00000005#32, [0x41]⟩ = .illegal .dinPresent := by decide

theorem test_table_words :
    decodeTableWord 32 0x00000001 = some (.crc32 []) ∧ decodeTableWord 32 0x00000105 = some (.extract true) ∧
    decodeTableWord 32 0xFFFF0004 = some (.send 0xFFFF#16 []) ∧ decodeTableWord 32 0x00000007 = none := by decide

/-- A table word is the first command after reset. -/
theorem test_table_word_runs_first :
    step (State.reset.withFetchWord 32 0x00000105) = exec (.extract true) State.reset ∧
    step (State.reset.withFetchWord 32 0x12340004) = exec (.send 0x1234#16 []) State.reset := ⟨rfl, rfl⟩

/-! ## One step of each command (95_test_vectors.md 2.1 to 2.8) -/

theorem test_crc32_check_value :
    seen (step (idle [] [.command ⟨0x00000001#32, [0x31, 0x32, 0x33, 0x34, 0x35, 0x36, 0x37, 0x38, 0x39]⟩])) =
      some (some ⟨.ok, 0xCBF43926#32, []⟩, []) := by decide +kernel

theorem test_crc32_empty : crc32 [] = 0x00000000#32 := by decide +kernel

theorem test_encode_zero_byte :
    seen (step (idle [] [.command ⟨0xFFFF0002#32, [0x00]⟩])) =
      some (some ⟨.ok, 0, [0x04, 0xFF, 0xFF, 0x01, 0x01, 0x05, 0x57, 0x5C, 0x81, 0xD3, 0x00]⟩, []) := by decide +kernel

theorem test_encode_type_byte_order :
    wire ⟨0x1234#16, [0x00, 0x00]⟩ =
      [0x04, 0x34, 0x12, 0x02, 0x01, 0x01, 0x03, 0x71, 0xE8, 0x02, 0x9E, 0x00] := by decide +kernel

theorem test_decode_frame :
    seen (step (idle [] [.command ⟨0x00000003#32, wireX⟩])) = some (some ⟨.ok, 1, [0x78]⟩, []) := by decide +kernel

/-- A length field of 2 over one body byte, with a valid CRC (95_test_vectors.md 2.5). -/
theorem test_decode_wrong_length :
    seen (step (idle [] [.command
      ⟨0x00000003#32, [0x02, 0x01, 0x02, 0x02, 0x06, 0x78, 0xCD, 0xF3, 0x18, 0xA6, 0x00]⟩])) =
      some (some ⟨.invalidLength, 0, []⟩, []) := by decide +kernel

theorem test_send_is_one_write :
    shown (step (idle [] [.command ⟨0x00030004#32, []⟩])) =
      some [.write wireEmpty .wok, .completion ⟨.ok, 0, []⟩] := by decide +kernel

theorem test_send_failed_write :
    shown (step { idle [] [.command ⟨0x00010004#32, [0x78]⟩] with writeDraws := [.werr 4] }) =
      some [.write wireX (.werr 4), .completion ⟨.transportError, 0, []⟩] := by decide +kernel

theorem test_extract_keeps_the_rest :
    seen (step (idle [0x41, 0x00, 0x42] [.command ⟨0x00000005#32, []⟩])) = some (some ⟨.ok, 0, [0x41]⟩, [0x42]) := by
  decide

theorem test_extract_appends_the_chunk :
    seen (step (waiting .extract [0x42] [.answer (.chunk [0x43, 0x00, 0x44, 0x00])])) =
      some (some ⟨.ok, 0, [0x42, 0x43]⟩, [0x44, 0x00]) := by decide

theorem test_readFrame_drops_a_bad_packet :
    seen (step (idle (badCrc ++ [0x00, 0x41]) [.command ⟨0x00000006#32, []⟩])) = some (some ⟨.absent, 0, []⟩, [0x41]) := by
  decide +kernel

theorem test_readFrame_ioerr_keeps_the_buffer :
    seen (step (waiting .readFrame [0x02, 0x01] [.answer .ioerr])) =
      some (some ⟨.transportError, 0, []⟩, [0x02, 0x01]) := by decide

/-- 95_test_vectors.md 2.6: 41 bytes do not fit 40. -/
theorem test_overflow_keeps_the_buffer :
    elementsAfter (step (waiting .extract (manyA 38) [.answer (.chunk [0x44, 0x45, 0x00])])) =
      some ⟨manyA 38, .idle, .none, true⟩ := by decide

/-- 40 bytes fit 40. -/
theorem test_exact_fit_does_not_overflow :
    seen (step (waiting .extract (manyA 37) [.answer (.chunk [0x44, 0x45, 0x00])])) =
      some (some ⟨.ok, 0, manyA 37 ++ [0x44, 0x45]⟩, []) := by decide

theorem test_illegal_command_changes_nothing :
    seen (step (idle [0x42, 0x00] [.command ⟨0x00000106#32, []⟩])) =
      some (some ⟨.illegalCommand, 0, []⟩, [0x42, 0x00]) := by decide

/-- 95_test_vectors.md 2.10. -/
theorem test_reset_aborts_a_fetch :
    elementsAfter (step (waiting .readFrame [0x42] [.reset])) = some ⟨[], .idle, .none, false⟩ ∧
    shown (step (waiting .readFrame [0x42] [.reset])) = some [] := by decide

theorem test_crc_table_entry : crcTable 0x80 = 0xEDB88320#32 := by decide +kernel

/-- 95_test_vectors.md 2.2. -/
theorem test_cobs_encode :
    cobsEncode [0x11, 0x22, 0x00, 0x33] = [0x03, 0x11, 0x22, 0x02, 0x33] ∧ cobsEncode [] = [0x01] ∧
    cobsEncode (manyA 254) = 0xFF :: manyA 254 ∧ cobsEncode (manyA 255) = 0xFF :: (manyA 254 ++ [0x02, 0x41]) := by
  decide +kernel

/-- 95_test_vectors.md 2.3. -/
theorem test_cobs_decode :
    cobsDecode [0x01, 0x02, 0x41] = .ok [0x00, 0x41] ∧ cobsDecode [0x03, 0x41] = .error .decodeError ∧
    cobsDecode [0x03, 0x41, 0x00, 0x01] = .error .decodeError ∧
    cobsDecode (0xFF :: (manyA 254 ++ [0x01])) = .ok (manyA 254) := by decide +kernel

/-- 95_test_vectors.md P6, check 4: once `Expired()` is true the loop stops before another READ_FRAME. -/
theorem test_deadline_stops_the_loop :
    (match readFramesStep (readFramesOn (some 0) none (idle [] [])) with
      | .next r => decide (r.phase = .stopped .timeout) && decide (r.yielded = [])
      | _ => false) = true := by decide

/-- RX_OVERFLOW ends READ_FRAMES (43_stream_reassembler.md R186). -/
theorem test_overflow_stops_the_loop :
    (match readFramesStep { readFramesOn none none (waiting .readFrame (manyA 40) [.answer (.chunk [0x41])]) with
        phase := .waiting } with
      | .next r => decide (r.phase = .stopped (.error .rxOverflow))
      | _ => false) = true := by decide

/-- After a reset has aborted its READ_FRAME, the loop takes no other command's completion (log entry 20). -/
theorem test_aborted_loop_takes_no_completion :
    (match readFramesStep { readFramesOn none none (idle [] [.command ⟨0x00000001#32, []⟩]) with phase := .aborted } with
      | .next r => decide (r.phase = .aborted) && decide (r.yielded = []) && decide (r.machine.trace.length = 1)
      | _ => false) = true := by decide +kernel

/-- 60_exceptions.md R200. -/
theorem test_status_codes :
    [Status.ok, .absent, .invalidLength, .decodeError, .invalidCrc, .transportError, .illegalCommand, .rxOverflow].map
      statusCode = [0x00#8, 0x01#8, 0x02#8, 0x03#8, 0x04#8, 0x05#8, 0x06#8, 0x07#8] := by decide

/-! ## Witnesses of the statements' hypotheses -/

theorem witness_DecodeOfEncode :
    Instr.wellFormed build (.send 0xFFFF#16 [0x00]) = true ∧ Instr.wellFormed build (.crc32 (manyA 65803)) = true := by
  refine ⟨by decide, ?_⟩
  simp [Instr.wellFormed, Params.dinFits, build, manyA_length]

theorem witness_EncodeOfDecode : decode build ⟨0x00000105#32, []⟩ = .command (.extract true) := by decide

theorem witness_MatchAndMaskSelectTheOperation :
    (∃ r ∈ cmdRows, r.hits 0xFFFF0002#32 = true ∧ build.dinFits [0x41] = true ∧ r.op.takesDin = true) ∧
    (∀ r ∈ cmdRows, r.hits 0x00000007#32 = false) ∧
    decode build ⟨0xFFFF0002#32, [0x41]⟩ = .command (.encode 0xFFFF#16 [0x41]) := by decide

theorem witness_LegalityIsCheckedFirst :
    (idle [] [.command ⟨0x00000106#32, []⟩]).phase = .idle ∧
    (idle [] [.command ⟨0x00000106#32, []⟩]).inputs = [.command ⟨0x00000106#32, []⟩] ∧
    legal build ⟨0x00000106#32, []⟩ = false ∧ legal build ⟨0x00000105#32, []⟩ = true := by decide

/-- The second and third clauses: 65536 bytes fit `DIN_MAX` and are no payload. -/
theorem witness_LegalityIsCheckedFirst_oversized :
    build.dinFits (manyA 65536) = true ∧ 65535 < (manyA 65536).length ∧ (idle [] []).phase = .idle := by
  refine ⟨?_, ?_, rfl⟩ <;> simp [Params.dinFits, build, manyA_length]

theorem witness_ReservedEncodingsChangeNothing :
    (idle [] [.command ⟨0x00000000#32, []⟩]).phase = .idle ∧
    (idle [] [.command ⟨0x00000000#32, []⟩]).inputs = [.command ⟨0x00000000#32, []⟩] ∧
    opcField 0x00000000#32 = 0 ∧ 7 ≤ (opcField 0x00000007#32).toNat ∧ 7 ≤ (opcField 0x000000FF#32).toNat ∧
    rsvField 0x00000201#32 ≠ 0 ∧ rsvField 0x00008001#32 ≠ 0 ∧
    (fetchField 0x00000106#32 = true ∧ opcField 0x00000106#32 ≠ 5) ∧
    (typeField 0x00010003#32 ≠ 0 ∧ opcField 0x00010003#32 ≠ 2 ∧ opcField 0x00010003#32 ≠ 4) ∧
    ([0x41#8] ≠ [] ∧ opcField 0x00000005#32 = 5 ∧ opcField 0x00000006#32 = 6) := by decide

theorem witness_StepRunsTheDecodedCommand :
    (idle [] [.command ⟨0x00000005#32, []⟩]).phase = .idle ∧
    (idle [] [.command ⟨0x00000005#32, []⟩]).inputs = .command ⟨0x00000005#32, []⟩ :: [] ∧
    decode (idle [] []).params ⟨0x00000005#32, []⟩ = .command (.extract false) := by decide

theorem witness_ResetStep :
    (idle [0x41, 0x00] [.reset]).inputs = .reset :: [] ∧ (waiting .extract [0x41] [.reset]).inputs = .reset :: [] := by
  decide

theorem witness_AbandonedReadIsDiscarded :
    (waiting .readFrame [0x42] [.reset, .lateAnswer .ioerr]).phase = .fetchWait ∧
    (waiting .readFrame [0x42] [.reset, .lateAnswer .ioerr]).inputs = .reset :: .lateAnswer .ioerr :: [] ∧
    (waiting .readFrame [0x42] [.reset, .answer (.chunk [0x00])]).inputs = .reset :: .answer (.chunk [0x00]) :: [] ∧
    (waiting .extract [] [.lateAnswer (.chunk [0x00])]).inputs = .lateAnswer (.chunk [0x00]) :: [] := by decide

theorem witness_UnansweredReadWaitsForever :
    (waiting .extract [0x42] [.lateAnswer .ioerr]).phase = .fetchWait ∧
    ∀ e ∈ (waiting .extract [0x42] [.lateAnswer .ioerr]).inputs, ∃ a, e = .lateAnswer a := by
  simp [waiting, idle]

theorem witness_CommandDuringFetchIsRefused :
    (waiting .extract [] [.command ⟨0x00000001#32, []⟩]).phase = .fetchWait ∧
    (waiting .extract [] [.command ⟨0x00000001#32, []⟩]).inputs = .command ⟨0x00000001#32, []⟩ :: [] := by decide

/-- On both sides of the equivalence: a step, and a chunk of `READ_MAX + 1` bytes. -/
theorem witness_StepStopsOnlyOutsideTheContract :
    Inv (idle [0x41, 0x00] []) ∧ Inv (waiting .extract [0x41] [.answer (.chunk (manyA 65))]) ∧
    build.readMax < (manyA 65).length ∧ ¬build.readMax < (manyA 64).length :=
  ⟨inv_idle (by decide), inv_waiting (by decide) (by decide) (by decide), by decide, by decide⟩

theorem witness_Crc32Command : (idle [0x41] []).phase = .idle := rfl

/-- 32 consecutive bits, all flipped, and one flipped bit. -/
theorem witness_CrcDetectsShortBursts :
    ([0x00, 0x00, 0x00, 0x00] : Bytes) ≠ [0xFF, 0xFF, 0xFF, 0xFF] ∧
    (∀ i j, j < 8 → (([0x00, 0x00, 0x00, 0x00] : Bytes).getD i 0).getLsbD j ≠
      (([0xFF, 0xFF, 0xFF, 0xFF] : Bytes).getD i 0).getLsbD j → 0 ≤ 8 * i + j ∧ 8 * i + j < 0 + 32) ∧
    (∀ i j, j < 8 → (([0x00, 0x00] : Bytes).getD i 0).getLsbD j ≠ (([0x00, 0x80] : Bytes).getD i 0).getLsbD j →
      0 ≤ 8 * i + j ∧ 8 * i + j < 0 + 32) := by
  refine ⟨by decide, ?_, ?_⟩
  · rintro (_ | _ | _ | _ | i) j hj h
    · omega
    · omega
    · omega
    · omega
    · simp at h
  · rintro (_ | _ | i) j hj h
    · omega
    · omega
    · simp at h

theorem witness_CobsLengthBounds :
    (∀ n, delimiter ∉ manyA n) ∧ (manyA 253).length % 254 ≠ 0 ∧ (manyA 255).length % 254 ≠ 0 ∧
    (manyA 254).length = 254 ∧ (manyA 255).length = 255 ∧ (manyA 508).length = 508 :=
  ⟨manyA_noDelimiter, by simp [manyA_length], by simp [manyA_length], manyA_length _, manyA_length _, manyA_length _⟩

theorem witness_CobsEncodingByBlocks :
    delimiter ∉ ([] : Bytes) ∧ (∀ n, delimiter ∉ manyA n) ∧ ([] : Bytes).length ≤ 253 ∧ (manyA 253).length ≤ 253 ∧
    (manyA 254).length = 254 ∧ ([0x00] : Bytes) ≠ [] :=
  ⟨by decide, manyA_noDelimiter, by decide, by simp [manyA_length], manyA_length _, by decide⟩

theorem witness_RawBlockLayout :
    Frame.wellFormed frameEmpty = true ∧ Frame.wellFormed ⟨0x4242#16, manyA 65535⟩ = true := by
  refine ⟨by decide, ?_⟩
  simp [Frame.wellFormed, Config.maxPayload, manyA_length]

theorem witness_WireFrame :
    Frame.wellFormed frameX = true ∧ Frame.wellFormed ⟨0x4242#16, manyA 65535⟩ = true ∧ frameEmpty.data.length = 0 :=
  ⟨by decide, witness_RawBlockLayout.2, rfl⟩

theorem witness_EncodeCommand :
    (manyA 65535).length ≤ 65535 ∧ 65535 < (manyA 65536).length ∧ (idle [] []).phase = .idle ∧
    ∃ t, exec (.encode 1 [0x78]) (idle [] []) = .next t ∧
      t.trace = (idle [] []).trace ++ [.completion ⟨.ok, 0, wire frameX⟩] :=
  ⟨by simp [manyA_length], by simp [manyA_length], rfl, _, rfl, rfl⟩

theorem witness_CobsDecodingFailsExactly : cobsDecode [0x02, 0x00] = .error .decodeError := by decide

theorem witness_NonCanonicalStuffingIsAccepted :
    delimiter ∉ manyA 254 ∧ (manyA 254).length = 254 ∧ decodeFrame wireX = .ok frameX :=
  ⟨manyA_noDelimiter _, manyA_length _, by decide +kernel⟩

theorem witness_OneTerminatorIsStripped :
    wireX.dropLast ≠ [] ∧ delimiter ∉ wireX.dropLast ∧ wireX.dropLast.getLast? ≠ some delimiter ∧
    delimiter ∈ stripTerminator (wireX ++ [delimiter]) := by decide

theorem witness_DecodeErrorPrecedence :
    cobsDecode (stripTerminator [0x02, 0x01, 0x00, 0x01]) = .error .decodeError ∧
    cobsDecode (stripTerminator [0x01]) = .ok [] ∧
    (cobsDecode (stripTerminator badCrc) = .ok [0x02, 0x00, 0x05, 0x00, 0x48, 0x65, 0x6C, 0x6C, 0x6F, 0x14, 0x42, 0xF5, 0x6A] ∧
      crc32 [0x02, 0x00, 0x05, 0x00, 0x48, 0x65, 0x6C, 0x6C, 0x6F] ≠ 0x6AF54214#32) ∧
    (cobsDecode (stripTerminator [0x02, 0x01, 0x02, 0x02, 0x06, 0x78, 0xCD, 0xF3, 0x18, 0xA6, 0x00]) =
        .ok [0x01, 0x00, 0x02, 0x00, 0x78, 0xCD, 0xF3, 0x18, 0xA6] ∧
      crc32 [0x01, 0x00, 0x02, 0x00, 0x78] = rdLe32 [0x01, 0x00, 0x02, 0x00, 0x78, 0xCD, 0xF3, 0x18, 0xA6] 5 ∧
      rdLe16 [0x01, 0x00, 0x02, 0x00, 0x78, 0xCD, 0xF3, 0x18, 0xA6] 2 = 2) ∧
    (cobsDecode (stripTerminator wireX) = .ok (raw frameX) ∧ crc32 ((raw frameX).take 5) = rdLe32 (raw frameX) 5 ∧
      (rdLe16 (raw frameX) 2).toNat = (raw frameX).length - 8) := by decide +kernel

/-- Seven and eight destuffed bytes. -/
theorem witness_DecodeLengthBoundary :
    cobsDecode (stripTerminator [0x02, 0x01, 0x01, 0x01, 0x04, 0xAA, 0xBB, 0xCC, 0x00]) =
      .ok [0x01, 0x00, 0x00, 0x00, 0xAA, 0xBB, 0xCC] ∧
    cobsDecode (stripTerminator wireEmpty) = .ok (raw frameEmpty) ∧ (raw frameEmpty).length = 8 ∧
    rdLe16 (raw frameEmpty) 2 = 0 ∧ crc32 ((raw frameEmpty).take 4) = rdLe32 (raw frameEmpty) 4 := by decide +kernel

theorem witness_FrameRoundTrip : Frame.wellFormed frameX = true ∧ Frame.wellFormed ⟨0x4242#16, manyA 65535⟩ = true :=
  ⟨by decide, witness_RawBlockLayout.2⟩

/-- The first bit and the last bit of a raw block. -/
theorem witness_SingleBitFlipGivesInvalidCrc :
    Frame.wellFormed frameX = true ∧ 0 < (raw frameX).length ∧ 8 < (raw frameX).length ∧ ¬9 < (raw frameX).length := by
  decide

theorem witness_AcceptedPacketIsTheRawBlockOfItsFrame : decodeFrame wireX.dropLast = .ok frameX := by decide +kernel

theorem witness_DecodeCommand :
    (idle [] []).phase = .idle ∧ decodeFrame wireX = .ok frameX ∧ decodeFrame [0x01] = .error .invalidLength ∧
    decodeFrame [0x02, 0x01, 0x00, 0x01] = .error .decodeError ∧ decodeFrame badCrc = .error .invalidCrc := by
  decide +kernel

theorem witness_CodecCommandsUseNoState :
    (∃ din, Instr.decode wireX = .decode din) ∧ (idle [0x41, 0x00] []).phase = .idle := ⟨⟨_, rfl⟩, rfl⟩

theorem witness_ExtractCommand :
    (idle [0x41, 0x00, 0x42] []).phase = .idle ∧ delimiter ∉ ([0x41] : Bytes) ∧
    (idle [0x41, 0x00, 0x42] []).rxbuf = [0x41] ++ delimiter :: [0x42] ∧ delimiter ∉ (idle [0x42] []).rxbuf := by decide

theorem witness_FetchIsIssuedOnce : (idle [0x42] []).phase = .idle ∧ delimiter ∉ (idle [0x42] []).rxbuf := by decide

theorem witness_ReadFrameCommand :
    (idle wireX []).phase = .idle ∧ delimiter ∉ wireX.dropLast ∧
    (idle wireX []).rxbuf = wireX.dropLast ++ delimiter :: [] ∧ decodeFrame wireX.dropLast = .ok frameX ∧
    delimiter ∉ badCrc ∧ (idle (badCrc ++ [0x00]) []).rxbuf = badCrc ++ delimiter :: [] ∧
    decodeFrame badCrc = .error .invalidCrc := by decide +kernel

theorem witness_EmptyPacket :
    (idle [0x00, 0x00] []).phase = .idle ∧ (idle [0x00, 0x00] []).rxbuf = delimiter :: [0x00] := by decide

/-- A `WERR` draw of 0 and one past the end of the bytes. -/
theorem witness_SendCommand :
    (idle [] []).phase = .idle ∧ nextWriteDraw (idle [] []) = .wok ∧
    nextWriteDraw { idle [] [] with writeDraws := [.werr 0] } = .werr 0 ∧
    nextWriteDraw { idle [] [] with writeDefault := .werr 100 } = .werr 100 ∧
    (manyA 65535).length ≤ 65535 ∧ 65535 < (manyA 65536).length :=
  ⟨rfl, rfl, rfl, rfl, by simp [manyA_length], by simp [manyA_length]⟩

/-- Each case of the answer step: IOERR, 41 bytes, 40 bytes without a delimiter, and a packet for each command. -/
theorem witness_AnswerStep :
    (∀ k a b, (waiting k b [.answer a]).phase = .fetchWait ∧ (waiting k b [.answer a]).pend = k ∧
      (waiting k b [.answer a]).inputs = .answer a :: []) ∧
    (manyA 1).length ≤ build.readMax ∧ 40 < (manyA 40).length + (manyA 1).length ∧
    (manyA 39 ++ manyA 1).length ≤ 40 ∧ delimiter ∉ manyA 39 ++ manyA 1 ∧
    [0x42#8] ++ [0x43#8, 0x00#8, 0x44#8] = [0x42#8, 0x43#8] ++ delimiter :: [0x44#8] ∧
    ([] : Bytes) ++ wireX = wireX.dropLast ++ delimiter :: [] ∧ decodeFrame wireX.dropLast = .ok frameX ∧
    ([] : Bytes) ++ (badCrc ++ [0x00]) = badCrc ++ delimiter :: [] ∧ decodeFrame badCrc = .error .invalidCrc := by
  refine ⟨fun _ _ _ => ⟨rfl, rfl, rfl⟩, ?_⟩
  decide +kernel

theorem witness_ZeroLengthChunkIsAbsent :
    Inv (waiting .readFrame [0x02, 0x01] [.answer (.chunk [])]) ∧
    (waiting .readFrame [0x02, 0x01] [.answer (.chunk [])]).phase = .fetchWait ∧
    (waiting .readFrame [0x02, 0x01] [.answer (.chunk [])]).inputs = .answer (.chunk []) :: [] :=
  ⟨inv_waiting (by decide) (by decide) (by decide), rfl, rfl⟩

theorem witness_ReceiveOverflow :
    (waiting .extract (manyA 40) [.answer (.chunk [0x41])]).phase = .fetchWait ∧ build.rxCap = some 40 ∧
    ([0x41] : Bytes).length ≤ build.readMax ∧ 40 < (manyA 40).length + 1 := by decide

/-- The second and third clauses: a step with OVF at 1, and one with an unbounded buffer. -/
theorem witness_ReceiveOverflow_sticky :
    (∃ t, step { idle [] [] with ovf := true } = .next t) ∧
    (∃ t, step (idle [] [.reset]) = .next t) ∧
    (∃ t, step { waiting .extract [] [.answer (.chunk [0x41])] with params := ⟨64, none, none⟩ } = .next t) :=
  ⟨⟨_, rfl⟩, ⟨_, rfl⟩, ⟨_, rfl⟩⟩

/-- A step of each kind: a packet taken, a chunk appended, reset. -/
theorem witness_ReceiveBufferChanges :
    (∃ t, step (idle [0x41, 0x00, 0x42] [.command ⟨0x00000005#32, []⟩]) = .next t ∧ t.rxbuf = [0x42]) ∧
    (∃ t, step (waiting .extract [0x41] [.answer (.chunk [0x42])]) = .next t ∧ t.rxbuf = [0x41, 0x42]) ∧
    (∃ t, step (idle [0x41] [.reset]) = .next t ∧ t.rxbuf = []) := ⟨⟨_, rfl, rfl⟩, ⟨_, rfl, rfl⟩, ⟨_, rfl, rfl⟩⟩

theorem witness_BuildParametersAreFixed : ∃ t, step (idle [0x41] [.reset]) = .next t := ⟨_, rfl⟩

theorem witness_FetchWaitIsEnteredOnlyByAFetch :
    (∃ t, step (idle [0x41] [readCommand]) = .next t ∧ t.phase = .fetchWait) ∧
    (∃ t, step (idle [0x41] [.command ⟨0x00000105#32, []⟩]) = .next t ∧ t.phase = .fetchWait) :=
  ⟨⟨_, rfl, rfl⟩, ⟨_, rfl, rfl⟩⟩

theorem witness_AbsentWithoutDropLeavesNoDelimiter :
    ∃ t, step (idle [0x42] [.command ⟨0x00000005#32, []⟩]) = .next t ∧
      t.trace = (idle [0x42] []).trace ++ [.completion ⟨.absent, 0, []⟩] ∧ t.taken = (idle [0x42] []).taken :=
  ⟨_, rfl, rfl, rfl⟩

theorem witness_StatusesStayInTheirRow :
    (∃ t, exec (.extract false) (idle [0x42] []) = .next t ∧ t.trace = [] ++ [.completion ⟨.absent, 0, []⟩]) ∧
    (pendCommand (waiting .readFrame [] []).pend = some .readFrame ∧
      ∃ t, answerStep .ioerr (waiting .readFrame [] []) = .next t ∧
        t.trace = [] ++ [.readAnswered .ioerr, .completion ⟨.transportError, 0, []⟩]) ∧
    (decode build ⟨0x00000007#32, []⟩ = .illegal (.reservedOpcode 0x07#8) ∧
      ∃ t, step (idle [] [.command ⟨0x00000007#32, []⟩]) = .next t ∧
        t.trace = [] ++ [.completion ⟨.illegalCommand, 0, []⟩]) :=
  ⟨⟨_, rfl, rfl⟩, ⟨rfl, _, rfl, rfl⟩, by decide, _, rfl, rfl⟩

/-- A buffered packet dropped, a chunk kept, a fetched packet dropped, and an overflow. -/
theorem witness_ErrorLeavesBehind :
    (∃ t, step (waiting .extract [0x41] [.answer (.chunk [0x42])]) = .next t ∧
      t.trace = [] ++ [.readAnswered (.chunk [0x42]), .completion ⟨.absent, 0, []⟩] ∧ t.rxbuf = [0x41, 0x42]) ∧
    (∃ t, step (waiting .readFrame [] [.answer (.chunk [0x00, 0x41])]) = .next t ∧
      t.trace = [] ++ [.readAnswered (.chunk [0x00, 0x41]), .completion ⟨.absent, 0, []⟩] ∧ t.rxbuf = [0x41]) ∧
    (∃ t, step (idle [0x00, 0x41] [readCommand]) = .next t ∧ t.trace = [] ++ [.completion ⟨.absent, 0, []⟩] ∧
      t.rxbuf = [0x41]) ∧
    (∃ t, step (waiting .extract (manyA 40) [.answer (.chunk [0x41])]) = .next t ∧
      t.trace = [] ++ [.readAnswered (.chunk [0x41]), .completion ⟨.rxOverflow, 0, []⟩] ∧ t.ovf = true) :=
  ⟨⟨_, rfl, rfl, rfl⟩, ⟨_, rfl, rfl, rfl⟩, ⟨_, rfl, rfl, rfl⟩, ⟨_, rfl, rfl, rfl⟩⟩

/-- A step for each arm. -/
theorem witness_OneCompletionPerCommand :
    (∃ t, step (idle [] []) = .next t) ∧ (∃ t, step (idle [] [.command ⟨0x00000000#32, []⟩]) = .next t) ∧
    (∃ t, step (idle [] [readCommand]) = .next t ∧ t.phase = .fetchWait) ∧
    (∃ t, step (waiting .extract [] [.answer .ioerr]) = .next t) ∧ (∃ t, step (idle [] [.answer .ioerr]) = .next t) ∧
    (∃ t, step (idle [] [.lateAnswer .ioerr]) = .next t) ∧ (∃ t, step (idle [] [.reset]) = .next t) :=
  ⟨⟨_, rfl⟩, ⟨_, rfl⟩, ⟨_, rfl, rfl⟩, ⟨_, rfl⟩, ⟨_, rfl⟩, ⟨_, rfl⟩, ⟨_, rfl⟩⟩

theorem witness_StepKeepsTheInvariant :
    Inv (waiting .extract [0x42] [.answer (.chunk [0x43, 0x00])]) ∧
    (∃ t, step (waiting .extract [0x42] [.answer (.chunk [0x43, 0x00])]) = .next t ∧ t.taken = [[0x42, 0x43]]) ∧
    Inv (idle [0x41, 0x00] [.command ⟨0x00000005#32, []⟩]) ∧
    (∃ t, step (idle [0x41, 0x00] [.command ⟨0x00000005#32, []⟩]) = .next t ∧ t.rxbuf = []) :=
  ⟨inv_waiting (by decide) (by decide) (by decide), ⟨_, rfl, rfl⟩, inv_idle (by decide), ⟨_, rfl, rfl⟩⟩

theorem witness_NoByteIsLost :
    (idle [0x41, 0x00] []).fed = delimited (idle [0x41, 0x00] []).taken ++ (idle [0x41, 0x00] []).rxbuf ∧
    (∃ t, steps 3 (idle [0x41, 0x00] [readCommand, readCommand, .answer (.chunk [0x42])]) = .next t ∧ t.rxbuf = [0x42]) ∧
    (idle [] [.reset]).inputs = .reset :: [] ∧ ∃ t, step (idle [] [.reset]) = .next t :=
  ⟨rfl, ⟨_, rfl, rfl⟩, rfl, _, rfl⟩

/-- A state in which two frames have arrived whole and been taken, and one in which a cut frame has arrived in part. -/
theorem witness_ReassemblyInOrder :
    (let fs := [frameX, frameEmpty]
     let s := { idle [] [] with fed := wireX ++ wireEmpty, taken := [wireX.dropLast, wireEmpty.dropLast] }
     Inv s ∧ (∀ f ∈ fs, f.wellFormed = true) ∧ s.fed = wireAll fs ∧ delimiter ∉ s.rxbuf) ∧
    (Inv (idle [0x02, 0x01] []) ∧ (idle [0x02, 0x01] []).fed <+: wireAll [frameX]) := by
  refine ⟨⟨?_, by decide, by decide +kernel, by decide⟩, inv_idle (by decide), by decide +kernel⟩
  exact
    { params := by decide
      pend := by simp [idle]
      waiting := by simp [idle]
      cap := by simp [WithinCap, idle, build]
      ovf := by simp [idle]
      conserved := by decide
      packets := by decide }

theorem witness_StreamSplitting :
    frameX.wellFormed = true ∧ frameEmpty.wellFormed = true ∧
    (wire frameX ++ wire frameEmpty).length ≤ build.readMax ∧ (wire frameX ++ wire frameEmpty).length ≤ 40 ∧
    ∃ s : State, s.phase = .idle ∧ s.rxbuf = [] ∧ s.params = build ∧
      s.inputs = readCommand :: .answer (.chunk (wire frameX ++ wire frameEmpty)) :: readCommand :: [] :=
  ⟨by decide, by decide, by decide +kernel, by decide +kernel, idle [] _, rfl, rfl, rfl, rfl⟩

/-- A cut inside a frame, one before its first byte, and one before its terminator. -/
theorem witness_PartialDelivery :
    (∀ n ∈ [0, 6, 10], wireX.take n ++ wireX.drop n = wire frameX ∧ wireX.drop n ≠ []) ∧
    (wire frameX).length ≤ build.readMax ∧ (wire frameX).length ≤ 40 ∧ frameX.wellFormed = true ∧
    ∃ s : State, s.phase = .idle ∧ s.rxbuf = [] ∧ s.params = build ∧
      s.inputs = readCommand :: .answer (.chunk (wireX.take 6)) :: readCommand :: .answer (.chunk (wireX.drop 6)) :: [] :=
  ⟨by decide +kernel, by decide +kernel, by decide +kernel, by decide, idle [] _, rfl, rfl, rfl, rfl⟩

theorem witness_SendThenReadFrameReturnsTheFrame :
    frameX.wellFormed = true ∧ Instr.wellFormed build (.send frameX.type frameX.data) = true ∧
    (wire frameX).length ≤ build.readMax ∧ (wire frameX).length ≤ 40 ∧
    ∃ s : State, s.phase = .idle ∧ s.rxbuf = [] ∧ nextWriteDraw s = .wok ∧ s.params = build ∧
      s.inputs = .command (encode (.send frameX.type frameX.data)) :: readCommand :: .answer (.chunk (wire frameX)) :: [] :=
  ⟨by decide, by decide, by decide +kernel, by decide +kernel, idle [] _, rfl, rfl, rfl, rfl, rfl⟩

/-- The cases before a READ_FRAME and the answer IOERR; the second case with a consumer that stops. -/
theorem witness_ReadFramesLoop :
    ((readFramesOn (some 0) none (idle [] [])).phase = .checking ∧ (readFramesOn (some 0) none (idle [] [])).expiry = some 0) ∧
    ((readFramesOn (some 1) (some 0) (idle wireX [])).expiry ≠ some 0 ∧ delimiter ∉ wireX.dropLast ∧
      wireX = wireX.dropLast ++ delimiter :: [] ∧ decodeFrame wireX.dropLast = .ok frameX) ∧
    ((readFramesOn none none (idle [0x00] [])).expiry ≠ some 0 ∧ decodeFrame [] = .error .invalidLength) ∧
    ((idle [0x41] []).phase = .idle ∧ delimiter ∉ (idle [0x41] []).rxbuf) ∧
    (let r := { readFramesOn none none (waiting .readFrame [] [.answer .ioerr]) with phase := .waiting }
     r.phase = .waiting ∧ r.machine.phase = .fetchWait ∧ r.machine.inputs = .answer .ioerr :: []) := by decide +kernel

/-- While the loop waits: a chunk one byte too long, one that fits exactly, a frame, a packet that does not decode, and no answer;
and a loop that has stopped. -/
theorem witness_ReadFramesLoop_waiting :
    (∀ b c, let r := { readFramesOn none (some 0) (waiting .readFrame b [.answer (.chunk c)]) with phase := .waiting }
      r.phase = .waiting ∧ r.machine.phase = .fetchWait ∧ r.machine.pend = .readFrame ∧
      r.machine.inputs = .answer (.chunk c) :: [] ∧ r.machine.params = build) ∧
    ¬WithinCap build (manyA 40 ++ [0x41]) ∧ WithinCap build (manyA 39 ++ [0x41]) ∧ delimiter ∉ manyA 39 ++ [0x41] ∧
    ([] ++ wireX = wireX.dropLast ++ delimiter :: [] ∧ delimiter ∉ wireX.dropLast ∧ wireX.length ≤ build.readMax ∧
      WithinCap build wireX ∧ decodeFrame wireX.dropLast = .ok frameX) ∧
    ([] ++ [0x00] = [] ++ delimiter :: [] ∧ WithinCap build [0x00] ∧ decodeFrame [] = .error .invalidLength) ∧
    (waiting .readFrame [] []).inputs = [] ∧
    { readFramesOn none none (idle [] []) with phase := .stopped .timeout }.phase = .stopped .timeout := by
  refine ⟨fun _ _ => ⟨rfl, rfl, rfl, rfl, rfl⟩, ?_, ?_, by decide, ⟨rfl, by decide, by decide, ?_, by decide +kernel⟩,
    ⟨rfl, ?_, rfl⟩, rfl, rfl⟩ <;> simp [WithinCap, build, manyA_length, wireX]

/-- While the loop waits, a late answer and a reset; and an aborted loop whose machine runs another command. -/
theorem witness_ReadFramesLoop_aborted :
    (∀ e, let r := { readFramesOn none none (waiting .readFrame [0x41] [e]) with phase := .waiting }
      r.phase = .waiting ∧ r.machine.phase = .fetchWait ∧ r.machine.inputs = e :: []) ∧
    ∃ m, step (idle [] [.command ⟨0x00000005#32, []⟩]) = .next m ∧ m.trace = [.completion ⟨.absent, 0, []⟩] :=
  ⟨fun _ => ⟨rfl, rfl, rfl⟩, _, rfl, rfl⟩

theorem witness_CorruptFrameResilience :
    delimiter ∉ badCrc ∧ decodeFrame badCrc = .error .invalidCrc ∧ frameX.wellFormed = true ∧
    (badCrc ++ delimiter :: wire frameX).length ≤ build.readMax ∧ (badCrc ++ delimiter :: wire frameX).length ≤ 40 ∧
    ∃ m : State, m.phase = .idle ∧ m.rxbuf = [] ∧ m.params = build ∧
      m.inputs = .answer (.chunk (badCrc ++ delimiter :: wire frameX)) :: List.replicate 1 (.answer (.chunk [])) :=
  ⟨by decide, by decide +kernel, by decide, by decide +kernel, by decide +kernel, idle [] _, rfl, rfl, rfl, rfl⟩

theorem witness_SilentLinkTimesOut :
    (idle [0x41] (List.replicate 3 (.answer (.chunk [])))).phase = .idle ∧ delimiter ∉ (idle [0x41] []).rxbuf ∧
    WithinCap build [0x41] ∧
    (idle [0x41] (List.replicate 3 (.answer (.chunk [])))).inputs = List.replicate 3 (.answer (.chunk [])) ++ [] := by
  refine ⟨rfl, by decide, ?_, rfl⟩
  simp [WithinCap, build]

end Sys2Proof.Tests
end

namespace Sys2Proof.Machine

/-! ## The codec commands in `IDLE` (R107, R127, R128, R150) -/

theorem exec_crc32_idle (din : Bytes) {s : State} (h : s.phase = .idle) :
    exec (.crc32 din) s = .next (complete .ok (crc32 din) [] s) :=
  whenIdle_idle h _

theorem exec_encode_idle_fits (type : Half) {din : Bytes} {s : State} (h : s.phase = .idle)
    (hp : payloadTooLong din = false) :
    exec (.encode type din) s = .next (complete .ok 0 (wire ⟨type, din⟩) s) := by
  simp [exec, execEncode, whenIdle_idle h, hp]

theorem exec_encode_idle_tooLong (type : Half) {din : Bytes} {s : State} (h : s.phase = .idle)
    (hp : payloadTooLong din = true) :
    exec (.encode type din) s = .next (raise .invalidLength s) := by
  simp [exec, execEncode, whenIdle_idle h, hp]

theorem exec_decode_idle_ok {din : Bytes} {f : Frame} {s : State} (h : s.phase = .idle)
    (hd : decodeFrame din = .ok f) :
    exec (.decode din) s = .next (complete .ok (typeRval f.type) f.data s) := by
  simp [exec, execDecode, whenIdle_idle h, hd]

theorem exec_decode_idle_error {din : Bytes} {k : ErrorKind} {s : State} (h : s.phase = .idle)
    (hd : decodeFrame din = .error k) :
    exec (.decode din) s = .next (raise (kindStatus k) s) := by
  simp [exec, execDecode, whenIdle_idle h, hd]

/-- No decoding error is reported as ABSENT (R151, R200). -/
theorem kindStatus_ne_absent (k : ErrorKind) : kindStatus k ≠ .absent := by
  cases k <;> simp [kindStatus]

/-! ## What finishing a taken packet leaves in the history of R190 -/

@[simp] theorem finishExtract_taken (p : Bytes) (s : State) : (finishExtract p s).taken = s.taken := rfl

@[simp] theorem finishReadFrame_taken (p : Bytes) (s : State) : (finishReadFrame p s).taken = s.taken := by
  obtain ⟨f, -, h⟩ | ⟨k, -, h⟩ := finishReadFrame_cases p s <;> simp [h]

/-- A fetch that finds its packet takes exactly that packet. -/
theorem finishFetch_taken {k : Pend} {i : Nat} {s t : State} (h : finishFetch k i s = .next t) :
    t.taken = s.taken ++ [rxPacket i s] := by
  obtain ⟨-, rfl⟩ | ⟨-, rfl⟩ := finishFetch_next h <;> simp [rxPacket]

end Sys2Proof.Machine

namespace Sys2Proof.Safety

open Sys2Proof.Machine

/-! ## ABSENT and the receive buffer (R45) -/

/-- Between `s` and `t`, a completion with ABSENT is either a drop, which takes a packet, or leaves no delimiter buffered. -/
def AbsentIsDropOrNoDelimiter (s t : State) : Prop :=
  ∀ (os : List Obs) (c : Completion), t.trace = s.trace ++ os → c ∈ completions os → c.status = .absent →
    t.taken = s.taken → delimiter ∉ t.rxbuf

/-! There are three reasons for it, and every step has one of them. -/

theorem AbsentIsDropOrNoDelimiter.of_taken {s t : State} {p : Bytes} (h : t.taken = s.taken ++ [p]) :
    AbsentIsDropOrNoDelimiter s t :=
  fun _ _ _ _ _ hsame => by simp [h] at hsame

theorem AbsentIsDropOrNoDelimiter.of_noDelimiter {s t : State} (h : delimiter ∉ t.rxbuf) :
    AbsentIsDropOrNoDelimiter s t :=
  fun _ _ _ _ _ _ => h

theorem AbsentIsDropOrNoDelimiter.of_observed {s t : State} (new : List Obs) (htrace : t.trace = s.trace ++ new)
    (hnew : ∀ c ∈ completions new, c.status ≠ .absent) : AbsentIsDropOrNoDelimiter s t := by
  intro os c hos hc habsent _
  obtain rfl : new = os := List.append_cancel_left (htrace.symm.trans hos)
  exact absurd habsent (hnew c hc)

/-- A completion with a status other than ABSENT, after observations `before` that hold no completion. -/
theorem AbsentIsDropOrNoDelimiter.of_completion {s t : State} (before : List Obs) {c : Completion}
    (htrace : t.trace = s.trace ++ before ++ [.completion c]) (hbefore : completions before = [])
    (hc : c.status ≠ .absent) : AbsentIsDropOrNoDelimiter s t :=
  .of_observed (before ++ [.completion c]) (by simpa using htrace) (by simpa [completions, hbefore] using hc)

/-- A single completion with a status other than ABSENT. -/
theorem AbsentIsDropOrNoDelimiter.of_loneCompletion {s t : State} {c : Completion}
    (htrace : t.trace = s.trace ++ [.completion c]) (hc : c.status ≠ .absent) : AbsentIsDropOrNoDelimiter s t :=
  .of_completion [] (by simpa using htrace) rfl hc

/-- A step that shows nothing. -/
theorem AbsentIsDropOrNoDelimiter.of_silent {s t : State} (htrace : t.trace = s.trace) :
    AbsentIsDropOrNoDelimiter s t :=
  .of_observed [] (by simpa using htrace) (by simp [completions])

theorem exec_absentIsDropOrNoDelimiter {i : Instr} {s t : State} (h : exec i s = .next t) :
    AbsentIsDropOrNoDelimiter s t := by
  cases i with
  | crc32 din =>
    obtain ⟨-, rfl⟩ := execCrc32_next h
    exact .of_loneCompletion rfl (by simp)
  | encode type din =>
    obtain ⟨-, ⟨-, rfl⟩ | ⟨-, rfl⟩⟩ := execEncode_next h
    · exact .of_loneCompletion rfl (by simp)
    · exact .of_loneCompletion rfl (by simp)
  | decode din =>
    obtain ⟨-, ⟨k, -, rfl⟩ | ⟨f, -, rfl⟩⟩ := execDecode_next h
    · exact .of_loneCompletion rfl (kindStatus_ne_absent k)
    · exact .of_loneCompletion rfl (by simp)
  | send type din =>
    obtain ⟨-, ⟨-, rfl⟩ | ⟨-, -, rfl⟩ | ⟨-, -, rfl⟩⟩ := execSend_next h
    · exact .of_loneCompletion rfl (by simp)
    · exact .of_completion [.write _ _] rfl rfl (by simp)
    · exact .of_completion [.write _ _] rfl rfl (by simp)
  | extract fetch =>
    obtain ⟨-, ⟨i, -, rfl⟩ | ⟨hnone, -, rfl⟩ | ⟨hnone, -, rfl⟩⟩ := execExtract_next h
    · exact .of_taken (finishExtract_taken _ _)
    · exact .of_noDelimiter (rxFind_none.mp hnone)
    · exact .of_noDelimiter (rxFind_none.mp hnone)
  | readFrame =>
    obtain ⟨-, ⟨i, -, rfl⟩ | ⟨hnone, rfl⟩⟩ := execReadFrame_next h
    · exact .of_taken (finishReadFrame_taken _ _)
    · exact .of_noDelimiter (rxFind_none.mp hnone)

theorem issueCommand_absentIsDropOrNoDelimiter {tx : Transaction} {s t : State} (h : issueCommand tx s = .next t) :
    AbsentIsDropOrNoDelimiter s t := by
  obtain ⟨-, ⟨why, -, rfl⟩ | ⟨i, -, hexec⟩⟩ := issueCommand_next h
  · exact .of_loneCompletion rfl (by simp)
  · exact exec_absentIsDropOrNoDelimiter hexec

theorem answerStep_absentIsDropOrNoDelimiter {a : ReadAnswer} {s t : State} (h : answerStep a s = .next t) :
    AbsentIsDropOrNoDelimiter s t := by
  obtain ⟨-, rfl⟩ | ⟨c, -, -, hchunk⟩ := answerStep_next h
  · exact .of_completion [.readAnswered .ioerr] rfl rfl (by simp)
  · obtain ⟨-, rfl⟩ | ⟨-, hnone, rfl⟩ | ⟨-, i, -, hfetch⟩ := takeChunk_next hchunk
    · exact .of_completion [.readAnswered (.chunk c)] rfl rfl (by simp)
    · exact .of_noDelimiter hnone
    · have htaken := finishFetch_taken hfetch
      exact .of_taken htaken

theorem step_absentIsDropOrNoDelimiter {s t : State} (h : step s = .next t) : AbsentIsDropOrNoDelimiter s t := by
  obtain ⟨-, rfl⟩ | ⟨e, rest, -, hevent⟩ := step_next h
  · exact .of_silent rfl
  · obtain ⟨tx, -, hcommand⟩ | ⟨a, -, -, hanswer⟩ | ⟨a, -, -, rfl⟩ | ⟨a, -, rfl⟩ | ⟨-, rfl⟩ := hevent
    · exact issueCommand_absentIsDropOrNoDelimiter (s := { s with inputs := rest }) hcommand
    · exact answerStep_absentIsDropOrNoDelimiter (s := { s with inputs := rest }) hanswer
    · exact .of_silent rfl
    · exact .of_silent rfl
    · exact .of_silent rfl

/-! ## The obligations -/

/-- Settles O34: whether ENCODE's payload fits and what DECODE's operand decodes to are read off the operands, so each of these
cases fixes the completion before the state is chosen. -/
theorem codecCommandsUseNoState : Obligations.CodecCommandsUseNoState := by
  rintro i (⟨din, rfl⟩ | ⟨type, din, rfl⟩ | ⟨din, rfl⟩)
  · exact ⟨⟨.ok, crc32 din, []⟩, fun s h => exec_crc32_idle din h⟩
  · cases hp : payloadTooLong din with
    | true => exact ⟨⟨.invalidLength, 0, []⟩, fun s h => exec_encode_idle_tooLong type h hp⟩
    | false => exact ⟨⟨.ok, 0, wire ⟨type, din⟩⟩, fun s h => exec_encode_idle_fits type h hp⟩
  · cases hd : decodeFrame din with
    | error k => exact ⟨⟨kindStatus k, 0, []⟩, fun s h => exec_decode_idle_error h hd⟩
    | ok f => exact ⟨⟨.ok, typeRval f.type, f.data⟩, fun s h => exec_decode_idle_ok h hd⟩

/-- Settles O46: of the steps that complete with ABSENT, only a drop takes a packet; the others have just searched `RXBUF` in
vain. -/
theorem absentWithoutDropLeavesNoDelimiter : Obligations.AbsentWithoutDropLeavesNoDelimiter :=
  fun _ _ os c hstep => step_absentIsDropOrNoDelimiter hstep os c

end Sys2Proof.Safety

namespace Sys2Proof.Machine

/-! ## What finishing a packet leaves in `RXBUF` and in the history of R190 -/

@[simp] theorem finishReadFrame_rxbuf (p : Bytes) (s : State) : (finishReadFrame p s).rxbuf = s.rxbuf := by
  obtain ⟨f, -, h⟩ | ⟨k, -, h⟩ := finishReadFrame_cases p s <;> simp [h]

@[simp] theorem finishReadFrame_fed (p : Bytes) (s : State) : (finishReadFrame p s).fed = s.fed := by
  obtain ⟨f, -, h⟩ | ⟨k, -, h⟩ := finishReadFrame_cases p s <;> simp [h]

/-- The step that takes a reset (R230). -/
theorem step_reset {s : State} {rest : List Event} (h : s.inputs = .reset :: rest) :
    step s = .next (resetEngine { s with inputs := rest }) :=
  step_event h

end Sys2Proof.Machine

namespace Sys2Proof.Safety

open Sys2Proof.Machine

/-! ## How `RXBUF` changes (R56) -/

/-- From `s` to `t`, `RXBUF` gets `c` at its tail and loses the packets `ps`, each with its delimiter, at its front, and the
history of R190 records both. -/
structure BufferChange (c : Bytes) (ps : List Bytes) (s t : State) : Prop where
  buffer : s.rxbuf ++ c = delimited ps ++ t.rxbuf
  fed : t.fed = s.fed ++ c
  taken : t.taken = s.taken ++ ps
  packets : ∀ p ∈ ps, NoDelimiter p

theorem BufferChange.of_unchanged {s t : State} (hrxbuf : t.rxbuf = s.rxbuf) (hfed : t.fed = s.fed)
    (htaken : t.taken = s.taken) : BufferChange [] [] s t where
  buffer := by simp [hrxbuf]
  fed := by simp [hfed]
  taken := by simp [htaken]
  packets := by simp

/-- Changes compose: chunks append at the tail, packets leave from the front. -/
theorem BufferChange.trans {c d : Bytes} {ps qs : List Bytes} {s t u : State} (hst : BufferChange c ps s t)
    (htu : BufferChange d qs t u) : BufferChange (c ++ d) (ps ++ qs) s u where
  buffer :=
    calc s.rxbuf ++ (c ++ d)
      _ = delimited ps ++ (t.rxbuf ++ d) := by rw [← List.append_assoc, hst.buffer, List.append_assoc]
      _ = delimited (ps ++ qs) ++ u.rxbuf := by rw [htu.buffer, delimited_append, List.append_assoc]
  fed := by rw [htu.fed, hst.fed, List.append_assoc]
  taken := by rw [htu.taken, hst.taken, List.append_assoc]
  packets := fun p hp => (List.mem_append.mp hp).elim (hst.packets p) (htu.packets p)

theorem BufferChange.then_unchanged {c : Bytes} {ps : List Bytes} {s t u : State} (h : BufferChange c ps s t)
    (hrxbuf : u.rxbuf = t.rxbuf) (hfed : u.fed = t.fed) (htaken : u.taken = t.taken) : BufferChange c ps s u := by
  simpa using h.trans (.of_unchanged hrxbuf hfed htaken)

theorem rxAppend_bufferChange (c : Bytes) (s : State) : BufferChange c [] s (rxAppend c s) where
  buffer := rfl
  fed := rfl
  taken := by simp
  packets := by simp

theorem rxTake_bufferChange {i : Nat} {s : State} (h : rxFind s = some i) :
    BufferChange [] [rxPacket i s] s (rxTake i s) := by
  obtain ⟨hsplit, hpacket⟩ := rxFind_some h
  exact { buffer := by simpa using hsplit, fed := by simp, taken := rfl, packets := by simpa using hpacket }

theorem finishExtract_bufferChange {i : Nat} {s : State} (h : rxFind s = some i) :
    BufferChange [] [rxPacket i s] s (finishExtract (rxPacket i s) (rxTake i s)) :=
  (rxTake_bufferChange h).then_unchanged rfl rfl rfl

theorem finishReadFrame_bufferChange {i : Nat} {s : State} (h : rxFind s = some i) :
    BufferChange [] [rxPacket i s] s (finishReadFrame (rxPacket i s) (rxTake i s)) :=
  (rxTake_bufferChange h).then_unchanged (finishReadFrame_rxbuf _ _) (finishReadFrame_fed _ _)
    (finishReadFrame_taken _ _)

theorem finishFetch_bufferChange {k : Pend} {i : Nat} {s t : State} (hfind : rxFind s = some i)
    (h : finishFetch k i s = .next t) : BufferChange [] [rxPacket i s] s t := by
  obtain ⟨-, rfl⟩ | ⟨-, rfl⟩ := finishFetch_next h
  · exact finishExtract_bufferChange hfind
  · exact finishReadFrame_bufferChange hfind

/-! ## What one step may do to `RXBUF` -/

/-- From `s` to `t`, `RXBUF` gets nothing or the whole of `chunk`, and loses at most one packet. -/
def BufferStep (chunk : Bytes) (s t : State) : Prop :=
  ∃ (c : Bytes) (ps : List Bytes), BufferChange c ps s t ∧ ps.length ≤ 1 ∧ (c = [] ∨ c = chunk)

theorem BufferStep.of_unchanged {chunk : Bytes} {s t : State} (hrxbuf : t.rxbuf = s.rxbuf) (hfed : t.fed = s.fed)
    (htaken : t.taken = s.taken) : BufferStep chunk s t :=
  ⟨[], [], .of_unchanged hrxbuf hfed htaken, by simp, .inl rfl⟩

/-- One packet leaves and nothing arrives. -/
theorem BufferStep.of_take {chunk p : Bytes} {s t : State} (h : BufferChange [] [p] s t) : BufferStep chunk s t :=
  ⟨[], [p], h, by simp, .inl rfl⟩

/-- A step may first change what is no part of the buffer or its history. -/
theorem BufferStep.after_unchanged {chunk : Bytes} {s t u : State} (h : BufferStep chunk t u)
    (hrxbuf : t.rxbuf = s.rxbuf) (hfed : t.fed = s.fed) (htaken : t.taken = s.taken) : BufferStep chunk s u := by
  obtain ⟨c, ps, hchange, hone, hchunk⟩ := h
  exact ⟨c, ps, (BufferChange.of_unchanged hrxbuf hfed htaken).trans hchange, hone, hchunk⟩

theorem exec_bufferStep (chunk : Bytes) {i : Instr} {s t : State} (h : exec i s = .next t) : BufferStep chunk s t := by
  cases i with
  | crc32 din =>
    obtain ⟨-, rfl⟩ := execCrc32_next h
    exact .of_unchanged rfl rfl rfl
  | encode type din =>
    obtain ⟨-, ⟨-, rfl⟩ | ⟨-, rfl⟩⟩ := execEncode_next h
    · exact .of_unchanged rfl rfl rfl
    · exact .of_unchanged rfl rfl rfl
  | decode din =>
    obtain ⟨-, ⟨k, -, rfl⟩ | ⟨f, -, rfl⟩⟩ := execDecode_next h
    · exact .of_unchanged rfl rfl rfl
    · exact .of_unchanged rfl rfl rfl
  | send type din =>
    obtain ⟨-, ⟨-, rfl⟩ | ⟨-, -, rfl⟩ | ⟨-, -, rfl⟩⟩ := execSend_next h
    · exact .of_unchanged rfl rfl rfl
    · exact .of_unchanged rfl rfl rfl
    · exact .of_unchanged rfl rfl rfl
  | extract fetch =>
    obtain ⟨-, ⟨i, hfind, rfl⟩ | ⟨-, -, rfl⟩ | ⟨-, -, rfl⟩⟩ := execExtract_next h
    · exact .of_take (finishExtract_bufferChange hfind)
    · exact .of_unchanged rfl rfl rfl
    · exact .of_unchanged rfl rfl rfl
  | readFrame =>
    obtain ⟨-, ⟨i, hfind, rfl⟩ | ⟨-, rfl⟩⟩ := execReadFrame_next h
    · exact .of_take (finishReadFrame_bufferChange hfind)
    · exact .of_unchanged rfl rfl rfl

theorem issueCommand_bufferStep (chunk : Bytes) {tx : Transaction} {s t : State} (h : issueCommand tx s = .next t) :
    BufferStep chunk s t := by
  obtain ⟨-, ⟨why, -, rfl⟩ | ⟨i, -, hexec⟩⟩ := issueCommand_next h
  · exact .of_unchanged rfl rfl rfl
  · exact exec_bufferStep chunk hexec

/-- A chunk is appended whole, unless it overflows, and at most one packet of the longer buffer is taken. -/
theorem takeChunk_bufferStep {k : Pend} {c : Bytes} {s t : State} (h : takeChunk k c s = .next t) :
    BufferStep c s t := by
  obtain ⟨-, rfl⟩ | ⟨-, -, rfl⟩ | ⟨-, i, hfind, hfetch⟩ := takeChunk_next h
  · exact .of_unchanged rfl rfl rfl
  · exact ⟨c, [], (rxAppend_bufferChange c s).then_unchanged rfl rfl rfl, by simp, .inr rfl⟩
  · have hchange := (rxAppend_bufferChange c s).trans (finishFetch_bufferChange hfind hfetch)
    exact ⟨c ++ [], _, hchange, by simp, by simp⟩

theorem answerStep_bufferStep {a : ReadAnswer} {rest : List Event} {s t : State} (hphase : s.phase = .fetchWait)
    (hinputs : s.inputs = .answer a :: rest) (h : answerStep a { s with inputs := rest } = .next t) :
    BufferStep (answeredChunk s) s t := by
  obtain ⟨-, rfl⟩ | ⟨c, rfl, -, hchunk⟩ := answerStep_next h
  · exact .of_unchanged rfl rfl rfl
  · rw [answeredChunk_chunk hphase hinputs]
    exact (takeChunk_bufferStep hchunk).after_unchanged rfl rfl rfl

/-- Every step but a reset. -/
theorem step_bufferStep {s t : State} (hreset : ¬∃ rest, s.inputs = .reset :: rest) (h : step s = .next t) :
    BufferStep (answeredChunk s) s t := by
  obtain ⟨-, rfl⟩ | ⟨e, rest, hinputs, hevent⟩ := step_next h
  · exact .of_unchanged rfl rfl rfl
  · obtain ⟨tx, -, hcommand⟩ | ⟨a, rfl, hphase, hanswer⟩ | ⟨a, -, -, rfl⟩ | ⟨a, -, rfl⟩ | ⟨rfl, -⟩ := hevent
    · exact (issueCommand_bufferStep _ hcommand).after_unchanged rfl rfl rfl
    · exact answerStep_bufferStep hphase hinputs hanswer
    · exact .of_unchanged rfl rfl rfl
    · exact .of_unchanged rfl rfl rfl
    · exact absurd ⟨rest, hinputs⟩ hreset

/-- Settles O43: a reset empties the buffer and its history by definition; for every other step the case split on its event
gives the chunk appended and the packet taken. -/
theorem receiveBufferChanges : Obligations.ReceiveBufferChanges := by
  intro s t h
  constructor
  · rintro ⟨rest, hinputs⟩
    obtain rfl : resetEngine { s with inputs := rest } = t := by simpa [step_reset hinputs] using h
    simp
  · intro hreset
    obtain ⟨c, ps, hchange, hone, hchunk⟩ := step_bufferStep hreset h
    exact ⟨c, ps, hchange.buffer, hchange.fed, hchange.taken, hone, hchange.packets, hchunk⟩

end Sys2Proof.Safety

namespace Sys2Proof

/-! ## The fields of a command word (R71) -/

theorem opcField_toNat (cmd : Word) : (opcField cmd).toNat = cmd.toNat % 256 := by
  simp [opcField]

theorem rsvField_toNat (cmd : Word) : (rsvField cmd).toNat = cmd.toNat / 512 % 128 := by
  simp [rsvField, Nat.shiftRight_eq_div_pow]

theorem typeField_toNat (cmd : Word) : (typeField cmd).toNat = cmd.toNat / 65536 := by
  have := cmd.isLt
  simp [typeField, Nat.shiftRight_eq_div_pow]
  omega

theorem fetchField_toNat (cmd : Word) : (fetchField cmd).toNat = cmd.toNat / 256 % 2 := by
  rw [fetchField, BitVec.getLsbD, Nat.testBit_eq_decide_div_mod_eq]
  rcases Nat.mod_two_eq_zero_or_one (cmd.toNat / 256) with h | h <;> simp [h]

theorem opcField_and (a b : Word) : opcField (a &&& b) = opcField a &&& opcField b :=
  BitVec.extractLsb'_and

theorem rsvField_and (a b : Word) : rsvField (a &&& b) = rsvField a &&& rsvField b :=
  BitVec.extractLsb'_and

theorem fetchField_and (a b : Word) : fetchField (a &&& b) = (fetchField a && fetchField b) :=
  BitVec.getLsbD_and

theorem typeField_and (a b : Word) : typeField (a &&& b) = typeField a &&& typeField b :=
  BitVec.extractLsb'_and

/-- The four fields cover the word (R71). -/
theorem word_eq_iff_fields (a b : Word) :
    a = b ↔ opcField a = opcField b ∧ rsvField a = rsvField b ∧ fetchField a = fetchField b ∧
      typeField a = typeField b := by
  constructor
  · rintro rfl
    exact ⟨rfl, rfl, rfl, rfl⟩
  · rintro ⟨hopc, hrsv, hfetch, htype⟩
    replace hopc := congrArg BitVec.toNat hopc
    replace hrsv := congrArg BitVec.toNat hrsv
    replace hfetch := congrArg Bool.toNat hfetch
    replace htype := congrArg BitVec.toNat htype
    simp only [opcField_toNat, rsvField_toNat, fetchField_toNat, typeField_toNat] at hopc hrsv hfetch htype
    exact BitVec.eq_of_toNat_eq (by omega)

/-! ## The opcode map (R77) -/

theorem Opcode.ofCode_eq_some_iff {c : BitVec 8} {o : Opcode} : Opcode.ofCode c = some o ↔ c = o.code := by
  constructor
  · unfold Opcode.ofCode
    split_ifs <;> rintro ⟨⟩ <;> assumption
  · rintro rfl
    cases o <;> rfl

theorem Opcode.code_injective {o o' : Opcode} (h : o.code = o'.code) : o = o' := by
  have hsome := Opcode.ofCode_eq_some_iff.mpr h
  rw [Opcode.ofCode_eq_some_iff.mpr rfl] at hsome
  exact Option.some.inj hsome

/-- The codes in use are 1 to 6; the others are reserved (R72). -/
theorem Opcode.exists_code_iff (c : BitVec 8) : (∃ o : Opcode, c = o.code) ↔ 1 ≤ c.toNat ∧ c.toNat ≤ 6 := by
  constructor
  · rintro ⟨o, rfl⟩
    cases o <;> decide
  · rintro ⟨hlo, hhi⟩
    have hc : c = 1 ∨ c = 2 ∨ c = 3 ∨ c = 4 ∨ c = 5 ∨ c = 6 := by bv_omega
    obtain rfl | rfl | rfl | rfl | rfl | rfl := hc
    exacts [⟨.crc32, rfl⟩, ⟨.encode, rfl⟩, ⟨.decode, rfl⟩, ⟨.send, rfl⟩, ⟨.extract, rfl⟩, ⟨.readFrame, rfl⟩]

theorem Opcode.takesFetch_iff (o : Opcode) : o.takesFetch = true ↔ o.code = 5 := by
  cases o <;> decide

theorem Opcode.takesType_iff (o : Opcode) : o.takesType = true ↔ o.code = 2 ∨ o.code = 4 := by
  cases o <;> decide

theorem Opcode.takesDin_iff (o : Opcode) : o.takesDin = true ↔ ¬(o.code = 5 ∨ o.code = 6) := by
  cases o <;> decide

/-! ## The checks of R79 after the opcode is known -/

/-- The checks of R79 on the command word of an operation: `OPC` is its code, `RSV` is 0, and `F` and `TYPE` are 0 unless it takes
them. -/
structure Opcode.AdmitsWord (o : Opcode) (cmd : Word) : Prop where
  code : opcField cmd = o.code
  rsv : rsvField cmd = 0
  fetch : fetchField cmd = false ∨ o.takesFetch = true
  type : typeField cmd = 0 ∨ o.takesType = true

/-- The checks of R79 on a transaction of an operation, all but the one on `DIN_MAX`. -/
structure Opcode.Admits (o : Opcode) (tx : Transaction) : Prop extends o.AdmitsWord tx.cmd where
  din : tx.din = [] ∨ o.takesDin = true

/-- What the decoder has checked when it answers a command. -/
theorem decode_command {p : Params} {tx : Transaction} {i : Instr} (h : decode p tx = .command i) :
    p.dinFits tx.din = true ∧ ∃ o : Opcode, o.Admits tx ∧ i = o.instr tx := by
  cases hop : Opcode.ofCode (opcField tx.cmd) with
  | none =>
    simp only [decode, hop] at h
    split at h <;> cases h
  | some o =>
    simp only [decode, hop] at h
    split_ifs at h with hfits hrsv hfetch htype hdin
    have hword : o.AdmitsWord tx.cmd :=
      { code := Opcode.ofCode_eq_some_iff.mp hop
        rsv := not_not.mp hrsv
        fetch := by simpa [or_iff_not_imp_left] using hfetch
        type := by simpa [or_iff_not_imp_left] using htype }
    have hadmits : o.Admits tx := { hword with din := by simpa [or_iff_not_imp_left] using hdin }
    exact ⟨by simpa using hfits, o, hadmits, (Decoded.command.inj h).symm⟩

/-- A transaction an operation admits decodes to its command, when DIN fits. -/
theorem decode_of_admits {p : Params} {tx : Transaction} {o : Opcode} (h : o.Admits tx)
    (hfits : p.dinFits tx.din = true) : decode p tx = .command (o.instr tx) := by
  have hrsv : ¬rsvField tx.cmd ≠ 0 := not_not.mpr h.rsv
  have hfetch : ¬(fetchField tx.cmd = true ∧ o.takesFetch = false) := by
    simpa [or_iff_not_imp_left] using h.fetch
  have htype : ¬(typeField tx.cmd ≠ 0 ∧ o.takesType = false) := by
    simpa [or_iff_not_imp_left] using h.type
  have hdin : ¬(tx.din ≠ [] ∧ o.takesDin = false) := by
    simpa [or_iff_not_imp_left] using h.din
  simp only [decode, hfits, Opcode.ofCode_eq_some_iff.mpr h.code, if_neg hrsv, if_neg hfetch, if_neg htype,
    if_neg hdin, Bool.true_eq_false, if_false]

/-- The decoder is total: what is no command is illegal. -/
theorem decode_illegal_of_no_command {p : Params} {tx : Transaction} (h : ∀ i, decode p tx ≠ .command i) :
    ∃ why, decode p tx = .illegal why := by
  cases hd : decode p tx with
  | command i => exact absurd hd (h i)
  | illegal why => exact ⟨why, rfl⟩

/-! ## `legal` and the decoder agree (R79) -/

/-- The number-level checks of `legal`, said of the fields. -/
theorem legal_iff_fields (p : Params) (tx : Transaction) :
    legal p tx = true ↔ p.dinFits tx.din = true ∧
      (1 ≤ (opcField tx.cmd).toNat ∧ (opcField tx.cmd).toNat ≤ 6) ∧ rsvField tx.cmd = 0 ∧
      (fetchField tx.cmd = false ∨ opcField tx.cmd = 5) ∧
      (typeField tx.cmd = 0 ∨ opcField tx.cmd = 2 ∨ opcField tx.cmd = 4) ∧
      (tx.din = [] ∨ ¬(opcField tx.cmd = 5 ∨ opcField tx.cmd = 6)) := by
  simp only [← Bool.toNat_eq_zero, ← List.length_eq_zero_iff, BitVec.toNat_eq, opcField_toNat, rsvField_toNat,
    fetchField_toNat, typeField_toNat, BitVec.ofNat_eq_ofNat, BitVec.toNat_ofNat, legal, Params.dinFits]
  cases p.dinMax <;> simp only [Bool.if_false_left, Bool.and_eq_true, Bool.not_eq_true', decide_eq_false_iff_not,
    decide_eq_true_eq, Bool.false_eq_true, not_false_eq_true, true_and, and_true] <;> omega

/-- `legal` holds of exactly the transactions that an operation admits and whose DIN fits. -/
theorem legal_iff_admits (p : Params) (tx : Transaction) :
    legal p tx = true ↔ p.dinFits tx.din = true ∧ ∃ o : Opcode, o.Admits tx := by
  rw [legal_iff_fields, ← Opcode.exists_code_iff]
  constructor
  · rintro ⟨hfits, ⟨o, hcode⟩, hrsv, hfetch, htype, hdin⟩
    rw [hcode, ← Opcode.takesFetch_iff] at hfetch
    rw [hcode, ← Opcode.takesType_iff] at htype
    rw [hcode, ← Opcode.takesDin_iff] at hdin
    exact ⟨hfits, o, ⟨⟨hcode, hrsv, hfetch, htype⟩, hdin⟩⟩
  · rintro ⟨hfits, o, ⟨⟨hcode, hrsv, hfetch, htype⟩, hdin⟩⟩
    rw [hcode, ← Opcode.takesDin_iff, ← Opcode.takesFetch_iff, ← Opcode.takesType_iff]
    exact ⟨hfits, ⟨o, rfl⟩, hrsv, hfetch, htype, hdin⟩

/-- The legal transactions are those the decoder answers a command for. -/
theorem legal_iff_decode (p : Params) (tx : Transaction) : legal p tx = true ↔ ∃ i, decode p tx = .command i := by
  rw [legal_iff_admits]
  constructor
  · rintro ⟨hfits, o, hadmits⟩
    exact ⟨o.instr tx, decode_of_admits hadmits hfits⟩
  · rintro ⟨i, hi⟩
    obtain ⟨hfits, o, hadmits, -⟩ := decode_command hi
    exact ⟨hfits, o, hadmits⟩

theorem decode_illegal_of_not_legal {p : Params} {tx : Transaction} (h : ¬legal p tx = true) :
    ∃ why, decode p tx = .illegal why :=
  decode_illegal_of_no_command fun i hi => h ((legal_iff_decode p tx).mpr ⟨i, hi⟩)

/-! ## Encoded commands are legal -/

open Laws in
/-- The word of a command is one its operation admits (R71, R77). -/
theorem admits_encode (i : Instr) : (opcodeOf i).Admits (encode i) := by
  have hfields : EncodedFields.Statement i := by
    cases i with
    | crc32 din => exact EncodedFields.crc32 din
    | encode type din => exact EncodedFields.encode type din
    | decode din => exact EncodedFields.decode din
    | send type din => exact EncodedFields.send type din
    | extract fetch => exact EncodedFields.extract fetch
    | readFrame => exact EncodedFields.readFrame
  obtain ⟨hcode, hrsv, hfetch, htype⟩ := hfields
  refine ⟨⟨hcode, hrsv, ?_, ?_⟩, ?_⟩
  · rw [hfetch]
    cases i <;> simp [fetchOf, opcodeOf, Opcode.takesFetch]
  · rw [htype]
    cases i <;> simp [typeOf, opcodeOf, Opcode.takesType]
  · cases i <;> simp [encode, opcodeOf, Opcode.takesDin]

theorem legal_encode {p : Params} {i : Instr} (h : p.dinFits (encode i).din = true) : legal p (encode i) = true :=
  (legal_iff_admits p (encode i)).mpr ⟨h, _, admits_encode i⟩

/-! ## Match and mask (R78) -/

/-- A row's test, field by field. -/
theorem CmdRow.hits_iff_fields (r : CmdRow) (cmd : Word) :
    r.hits cmd = true ↔ opcField cmd &&& opcField r.mask = opcField r.pattern ∧
      rsvField cmd &&& rsvField r.mask = rsvField r.pattern ∧
      (fetchField cmd && fetchField r.mask) = fetchField r.pattern ∧
      typeField cmd &&& typeField r.mask = typeField r.pattern := by
  rw [CmdRow.hits, beq_iff_eq, word_eq_iff_fields, opcField_and, rsvField_and, fetchField_and, typeField_and]

/-- The masks of R78's table cover `OPC` and `RSV`, and `F` and `TYPE` where the operation does not take them. -/
theorem cmdRows_mask : ∀ r ∈ cmdRows, opcField r.mask = BitVec.allOnes 8 ∧ rsvField r.mask = BitVec.allOnes 7 ∧
    fetchField r.mask = !r.op.takesFetch ∧
    typeField r.mask = if r.op.takesType = true then 0 else BitVec.allOnes 16 := by
  decide

/-- The patterns of R78's table hold the operation's code and zeros. -/
theorem cmdRows_pattern : ∀ r ∈ cmdRows, opcField r.pattern = r.op.code ∧ rsvField r.pattern = 0 ∧
    fetchField r.pattern = false ∧ typeField r.pattern = 0 := by
  decide

/-- A row matches exactly the words its operation admits. -/
theorem CmdRow.hits_iff_admitsWord {r : CmdRow} (hr : r ∈ cmdRows) (cmd : Word) :
    r.hits cmd = true ↔ r.op.AdmitsWord cmd := by
  obtain ⟨hopcMask, hrsvMask, hfetchMask, htypeMask⟩ := cmdRows_mask r hr
  obtain ⟨hopc, hrsv, hfetch, htype⟩ := cmdRows_pattern r hr
  have hF : (fetchField cmd && !r.op.takesFetch) = false ↔ fetchField cmd = false ∨ r.op.takesFetch = true := by
    cases r.op.takesFetch <;> simp
  have hT : typeField cmd &&& (if r.op.takesType = true then 0 else BitVec.allOnes 16) = 0 ↔
      typeField cmd = 0 ∨ r.op.takesType = true := by
    cases r.op.takesType with
    | true => simp
    | false => simp only [Bool.false_eq_true, if_false, BitVec.and_allOnes, or_false]
  rw [r.hits_iff_fields, hopcMask, hrsvMask, hfetchMask, htypeMask, hopc, hrsv, hfetch, htype, BitVec.and_allOnes,
    BitVec.and_allOnes, hF, hT]
  exact ⟨fun ⟨hopc, hrsv, hfetch, htype⟩ => ⟨hopc, hrsv, hfetch, htype⟩,
    fun ⟨hopc, hrsv, hfetch, htype⟩ => ⟨hopc, hrsv, hfetch, htype⟩⟩

/-- The table has one row for each operation. -/
theorem exists_cmdRow (o : Opcode) : ∃ r ∈ cmdRows, r.op = o := by
  cases o <;> decide

theorem cmdRow_eq_of_op_eq : ∀ r ∈ cmdRows, ∀ r' ∈ cmdRows, r.op = r'.op → r = r' := by
  decide

/-- What decodes matches the row of its command. -/
theorem decode_command_hits {p : Params} {tx : Transaction} {i : Instr} (h : decode p tx = .command i) :
    ∃ r ∈ cmdRows, r.hits tx.cmd = true ∧ i = r.op.instr tx := by
  obtain ⟨-, o, hadmits, rfl⟩ := decode_command h
  obtain ⟨r, hr, rfl⟩ := exists_cmdRow o
  exact ⟨r, hr, (CmdRow.hits_iff_admitsWord hr _).mpr hadmits.toAdmitsWord, rfl⟩

end Sys2Proof

namespace Sys2Proof.Machine

/-! ## The step on a command transaction in `IDLE` (R79) -/

theorem issueCommand_command {tx : Transaction} {s : State} {i : Instr} (hphase : s.phase = .idle)
    (hdecode : decode s.params tx = .command i) : issueCommand tx s = exec i s := by
  rw [issueCommand, whenIdle_idle hphase, hdecode]

theorem issueCommand_illegal {tx : Transaction} {s : State} {why : Illegal} (hphase : s.phase = .idle)
    (hdecode : decode s.params tx = .illegal why) : issueCommand tx s = .next (raise .illegalCommand s) := by
  rw [issueCommand, whenIdle_idle hphase, hdecode]

/-- A legal transaction runs its command. -/
theorem step_command_decoded {s : State} {tx : Transaction} {rest : List Event} {i : Instr} (hphase : s.phase = .idle)
    (hinputs : s.inputs = .command tx :: rest) (hdecode : decode s.params tx = .command i) :
    step s = exec i { s with inputs := rest } :=
  (step_event hinputs).trans (issueCommand_command (s := { s with inputs := rest }) hphase hdecode)

/-- An illegal transaction completes with ILLEGAL_COMMAND. -/
theorem step_command_illegal {s : State} {tx : Transaction} {rest : List Event} (hphase : s.phase = .idle)
    (hinputs : s.inputs = .command tx :: rest) (hlegal : ¬legal s.params tx = true) :
    step s = .next (raise .illegalCommand { s with inputs := rest }) := by
  obtain ⟨why, hdecode⟩ := decode_illegal_of_not_legal hlegal
  exact (step_event hinputs).trans (issueCommand_illegal (s := { s with inputs := rest }) hphase hdecode)

theorem exec_send_idle_tooLong (type : Half) {din : Bytes} {s : State} (h : s.phase = .idle)
    (hp : payloadTooLong din = true) :
    exec (.send type din) s = .next (raise .invalidLength s) := by
  simp [exec, execSend, whenIdle_idle h, hp]

theorem payloadTooLong_iff (din : Bytes) : payloadTooLong din = true ↔ 65535 < din.length := by
  simp [payloadTooLong, Config.maxPayload]

/-! ## Little-endian fields read back (R20) -/

/-- A byte of `v`, put back where it was taken from, holds the bits of `v` there and zeros elsewhere. -/
theorem getLsbD_byteInPlace {w : Nat} (v : BitVec w) (k : Nat) {i : Nat} (hi : i < w) :
    ((v.extractLsb' k 8).zeroExtend w <<< k).getLsbD i = (decide (k ≤ i ∧ i < k + 8) && v.getLsbD i) := by
  by_cases hk : i < k
  · simp [hk]
  · have hoffset : k + (i - k) = i := by omega
    simp [hi, hk, hoffset, show k ≤ i by omega, show i - k < 8 ↔ i < k + 8 by omega]

theorem rdLe16_le16_append (v : Half) (rest : Bytes) : rdLe16 (le16 v ++ rest) 0 = v := by
  apply BitVec.eq_of_getLsbD_eq
  intro i hi
  have h0 := getLsbD_byteInPlace v 0 hi
  rw [BitVec.shiftLeft_zero] at h0
  simp only [rdLe16, le16, List.cons_append, List.getD_cons_zero, List.getD_cons_succ, Nat.zero_add, BitVec.getLsbD_or,
    h0, getLsbD_byteInPlace v 8 hi]
  cases v.getLsbD i with
  | false => simp
  | true =>
    simp
    omega

theorem rdLe32_le32 (v : Word) : rdLe32 (le32 v) 0 = v := by
  apply BitVec.eq_of_getLsbD_eq
  intro i hi
  have h0 := getLsbD_byteInPlace v 0 hi
  rw [BitVec.shiftLeft_zero] at h0
  simp only [rdLe32, le32, List.getD_cons_zero, List.getD_cons_succ, Nat.zero_add, BitVec.getLsbD_or, h0,
    getLsbD_byteInPlace v 8 hi, getLsbD_byteInPlace v 16 hi, getLsbD_byteInPlace v 24 hi]
  cases v.getLsbD i with
  | false => simp
  | true =>
    simp
    omega

/-- Reading past some bytes is reading what follows them. -/
theorem rdLe16_append (front rest : Bytes) (i : Nat) : rdLe16 (front ++ rest) (front.length + i) = rdLe16 rest i := by
  simp [rdLe16, Nat.add_assoc, List.getElem?_append_right]

theorem rdLe32_append (front rest : Bytes) (i : Nat) : rdLe32 (front ++ rest) (front.length + i) = rdLe32 rest i := by
  simp [rdLe32, Nat.add_assoc, List.getElem?_append_right]

/-! ## The raw block (R85, R121) -/

theorem raw_length (f : Frame) : (raw f).length = 8 + f.data.length := by
  simp [raw]
  omega

theorem raw_take_body (f : Frame) : (raw f).take (4 + f.data.length) = hdr f ++ f.data := by
  have hlen : 4 + f.data.length = (hdr f ++ f.data).length := by simp
  rw [raw, hlen, List.take_left]

end Sys2Proof.Machine

namespace Sys2Proof.Safety

open Sys2Proof.Machine

/-! ## The obligations -/

/-- Settles O3: a row matches exactly the words its operation admits, so the rows differ in their codes and agree with the
decoder. -/
theorem matchAndMaskSelectTheOperation : Obligations.MatchAndMaskSelectTheOperation := by
  refine ⟨?_, ?_, ?_, fun _ _ _ => decode_command_hits⟩
  · intro cmd r hr r' hr' hhit hhit'
    have hcode := ((CmdRow.hits_iff_admitsWord hr cmd).mp hhit).code
    have hcode' := ((CmdRow.hits_iff_admitsWord hr' cmd).mp hhit').code
    exact cmdRow_eq_of_op_eq r hr r' hr' (Opcode.code_injective (hcode.symm.trans hcode'))
  · intro p tx hmiss
    refine decode_illegal_of_no_command fun i hi => ?_
    obtain ⟨r, hr, hhit, -⟩ := decode_command_hits hi
    simp [hmiss r hr] at hhit
  · intro p tx r hr hhit hfits hdin
    exact decode_of_admits ⟨(CmdRow.hits_iff_admitsWord hr tx.cmd).mp hhit, hdin⟩ hfits

/-- Settles O4: `legal` and the decoder agree, and an oversized payload passes the checks of R79 and fails in the command. -/
theorem legalityIsCheckedFirst : Obligations.LegalityIsCheckedFirst := by
  refine ⟨?_, fun p type din hfits => ⟨legal_encode hfits, legal_encode hfits⟩, ?_⟩
  · intro s tx rest hphase hinputs
    split
    · next hlegal =>
      obtain ⟨i, hdecode⟩ := (legal_iff_decode s.params tx).mp hlegal
      exact ⟨i, hdecode, step_command_decoded hphase hinputs hdecode⟩
    · next hlegal => exact step_command_illegal hphase hinputs hlegal
  · intro s type din hphase hlong
    have hp := (payloadTooLong_iff din).mpr hlong
    exact ⟨exec_encode_idle_tooLong type hphase hp, exec_send_idle_tooLong type hphase hp⟩

/-- Settles O5: each reserved encoding fails one of the checks of `legal`. -/
theorem reservedEncodingsChangeNothing : Obligations.ReservedEncodingsChangeNothing := by
  intro s tx rest hphase hinputs hreserved
  refine step_command_illegal hphase hinputs fun hlegal => ?_
  obtain ⟨-, ⟨hlo, hhi⟩, hrsv, hfetch, htype, hdin⟩ := (legal_iff_fields s.params tx).mp hlegal
  obtain hzero | hhigh | hrsv' | ⟨hone, hother⟩ | ⟨htype', hother⟩ | ⟨hdin', hother⟩ := hreserved
  · simp [hzero] at hlo
  · omega
  · exact hrsv' hrsv
  · exact hother (hfetch.resolve_left (by simp [hone]))
  · exact (htype.resolve_left htype').elim hother.1 hother.2
  · exact (hdin.resolve_left hdin') hother

/-- Settles O22: each field is read behind the part of the block before it; the length field holds `L` because `L` is at most
65535. -/
theorem rawBlockLayout : Obligations.RawBlockLayout := by
  intro f hf
  have hmax : f.data.length ≤ 65535 := of_decide_eq_true hf
  have hlength : rdLe16 (raw f) 2 = BitVec.ofNat 16 f.data.length := by
    calc rdLe16 (raw f) 2
      _ = rdLe16 (le16 f.type ++ (le16 (BitVec.ofNat 16 f.data.length) ++ (f.data ++ le32 (crc32 (hdr f ++ f.data))))) 2 := by
        simp [raw, hdr]
      _ = BitVec.ofNat 16 f.data.length := (rdLe16_append (le16 f.type) _ 0).trans (rdLe16_le16_append _ _)
  have hcrc : rdLe32 (raw f) (4 + f.data.length) = crc32 (hdr f ++ f.data) := by
    have hpos : 4 + f.data.length = (hdr f ++ f.data).length + 0 := by simp
    rw [raw, hpos, rdLe32_append, rdLe32_le32]
  refine ⟨raw_length f, ?_, ?_, ?_, ?_⟩
  · rw [raw, hdr, List.append_assoc, List.append_assoc, rdLe16_le16_append]
  · rw [hlength, BitVec.toNat_ofNat]
    omega
  · have hdrop : (raw f).drop 4 = f.data ++ le32 (crc32 (hdr f ++ f.data)) := by
      rw [raw, List.append_assoc]
      exact List.drop_left' (hdr_length f)
    rw [hdrop, List.take_left]
  · rw [hcrc, raw_take_body]

end Sys2Proof.Safety

namespace Sys2Proof.Machine

/-! ## The CRC register update is linear over exclusive-or (R101) -/

/-- What the shifted-out bit `b` adds to the register: the polynomial, or nothing. -/
def crcFeedback (b : Bool) : Word :=
  if b then crcPoly else 0

theorem crcBit_eq_shift_xor_feedback (s : Word) : crcBit s = (s >>> 1) ^^^ crcFeedback (s.getLsbD 0) := by
  unfold crcBit crcFeedback
  split
  · rfl
  · exact BitVec.xor_zero.symm

/-- Two set bits shifted out together add the polynomial twice, which cancels. -/
theorem crcFeedback_xor (a b : Bool) : crcFeedback (a ^^ b) = crcFeedback a ^^^ crcFeedback b := by
  cases a <;> cases b <;> rfl

theorem crcBit_of_bit0_clear {s : Word} (h : s.getLsbD 0 = false) : crcBit s = s >>> 1 := by
  rw [crcBit_eq_shift_xor_feedback, h]
  exact BitVec.xor_zero

theorem crcBit_xor (s t : Word) : crcBit (s ^^^ t) = crcBit s ^^^ crcBit t := by
  simp only [crcBit_eq_shift_xor_feedback, BitVec.ushiftRight_xor_distrib, BitVec.getLsbD_xor, crcFeedback_xor]
  ac_rfl

theorem crcBits_xor (n : Nat) (s t : Word) : crcBits n (s ^^^ t) = crcBits n s ^^^ crcBits n t := by
  induction n generalizing s t with
  | zero => rfl
  | succ n ih => rw [crcBits_succ, crcBit_xor, ih, crcBits_succ, crcBits_succ]

/-- As long as the bits that reach the low end are clear, the register only shifts. -/
theorem crcBits_of_low_bits_clear {n : Nat} {s : Word} (h : ∀ i < n, s.getLsbD i = false) : crcBits n s = s >>> n := by
  induction n generalizing s with
  | zero => simp
  | succ n ih =>
    have hshifted : ∀ i < n, (s >>> 1).getLsbD i = false := fun i hi => by
      simpa using h (1 + i) (by omega)
    rw [crcBits_succ, crcBit_of_bit0_clear (h 0 (by omega)), ih hshifted, ← BitVec.shiftRight_add, Nat.add_comm]

/-- A register value is its low byte and the rest. -/
theorem lowByte_xor_rest (s : Word) : (s.extractLsb' 0 8).zeroExtend 32 ^^^ (s >>> 8) <<< 8 = s := by
  apply BitVec.eq_of_getLsbD_eq
  intro i hi
  by_cases hlow : i < 8
  · simp [hi, hlow]
  · simp [hi, hlow, show 8 + (i - 8) = i by omega]

/-- The low byte is clear in the rest, so shifting it out loses nothing. -/
theorem rest_ushiftRight_eight (s : Word) : ((s >>> 8) <<< 8) >>> 8 = s >>> 8 := by
  apply BitVec.eq_of_getLsbD_eq
  intro i hi
  by_cases htop : 8 + i < 32
  · simp [htop]
  · simp [htop, BitVec.getLsbD_of_ge s (8 + i) (by omega)]

/-- The byte of the message touches the register's low byte only. -/
theorem xor_byte_ushiftRight_eight (s : Word) (b : Byte) : (s ^^^ b.zeroExtend 32) >>> 8 = s >>> 8 := by
  apply BitVec.eq_of_getLsbD_eq
  intro i hi
  simp

/-- The table entry of a byte is eight turns of the loop from that byte (R101, R103). -/
theorem crcTable_eq_crcBits (i : Byte) : crcTable i = crcBits 8 (i.zeroExtend 32) := by
  rw [crcTable, crcByte, BitVec.zero_xor]

/-- The table form (R103): eight turns take the low byte to its table entry and only shift the rest. -/
theorem crcByteByTable_eq_crcByte (s : Word) (b : Byte) : crcByteByTable s b = crcByte s b := by
  have hrest (x : Word) : crcBits 8 ((x >>> 8) <<< 8) = x >>> 8 := by
    rw [crcBits_of_low_bits_clear fun i hi => by simp [hi], rest_ushiftRight_eight]
  calc crcByteByTable s b
    _ = crcBits 8 (((s ^^^ b.zeroExtend 32).extractLsb' 0 8).zeroExtend 32) ^^^ (s ^^^ b.zeroExtend 32) >>> 8 := by
      rw [crcByteByTable, crcTable_eq_crcBits, xor_byte_ushiftRight_eight]
    _ = crcBits 8 (s ^^^ b.zeroExtend 32) := by
      rw [← hrest, ← crcBits_xor, lowByte_xor_rest]
    _ = crcByte s b := rfl

/-! ## The CRC over pieces (R104) -/

theorem crcRun_append (s : Word) (a b : Bytes) : crcRun s (a ++ b) = crcRun (crcRun s a) b := by
  induction a generalizing s with
  | nil => rfl
  | cons x xs ih => rw [List.cons_append, crcRun_cons, ih, crcRun_cons]

theorem foldl_crcRun (s : Word) (pieces : List Bytes) : pieces.foldl crcRun s = crcRun s pieces.flatten := by
  induction pieces generalizing s with
  | nil => rfl
  | cons p ps ih => rw [List.foldl_cons, ih, List.flatten_cons, crcRun_append]

end Sys2Proof.Machine

namespace Sys2Proof.Safety

open Sys2Proof.Machine

/-! ## The obligations -/

/-- Settles O15: the update is linear, so the low byte goes to its table entry and the rest only shifts. -/
theorem crcTableForm : Obligations.CrcTableForm :=
  ⟨crcByteByTable_eq_crcByte, by decide +kernel⟩

/-- Settles O16: the run over a concatenation continues from the register the first piece leaves, by induction on the pieces. -/
theorem crcOverPieces : Obligations.CrcOverPieces :=
  ⟨fun s a b => (crcRun_append s a b).symm, fun pieces => by rw [foldl_crcRun, crc32]⟩

/-- Settles O14: in `IDLE` the command is accepted and completes; the words and the CRCs of the corner cases are evaluated. -/
theorem crc32Command : Obligations.Crc32Command :=
  ⟨fun din s h => exec_crc32_idle din h, fun din => rfl, by decide +kernel⟩

end Sys2Proof.Safety

namespace Sys2Proof.Machine

/-! ## COBS encoding, block by block (R122) -/

/-- What the loop of R122 writes, a block at a time: from the start of a block, with `final_zero = z` and `x` left of the input, it
writes `y`. -/
inductive Stuffing : Bool → Bytes → Bytes → Prop
  /-- The input ended with a full block. -/
  | nothing : Stuffing false [] []
  /-- The input ends with the run. -/
  | last {z : Bool} {run : Bytes} : delimiter ∉ run → run.length ≤ 253 → run.length ≠ 0 ∨ z = true →
      Stuffing z run (BitVec.ofNat 8 (run.length + 1) :: run)
  /-- The run ends at a zero, which its code stands for. -/
  | zero {z : Bool} {run x y : Bytes} : delimiter ∉ run → run.length ≤ 253 → Stuffing true x y →
      Stuffing z (run ++ delimiter :: x) (BitVec.ofNat 8 (run.length + 1) :: (run ++ y))
  /-- The run ends at its 254th byte. -/
  | full {z : Bool} {run x y : Bytes} : delimiter ∉ run → run.length = 254 → Stuffing false x y →
      Stuffing z (run ++ x) (0xFF#8 :: (run ++ y))

/-- The loop, from an open block on, writes what the blocks of the whole input are. -/
theorem stuffing_cobsFrom (x : Bytes) {block : Bytes} (z : Bool) (hblock : delimiter ∉ block)
    (hlen : block.length ≤ 253) : Stuffing z (block ++ x) (cobsFrom block z x) := by
  induction x generalizing block z with
  | nil =>
    rw [List.append_nil]
    by_cases hend : block.length ≠ 0 ∨ z = true
    · rw [cobsFrom_end hend]
      exact .last hblock hlen hend
    · obtain ⟨rfl, rfl⟩ : block = [] ∧ z = false := by simpa using hend
      rw [cobsFrom_end_full]
      exact .nothing
  | cons b x ih =>
    by_cases hb : b = delimiter
    · subst hb
      rw [cobsFrom_zero]
      exact .zero hblock hlen (ih true List.not_mem_nil (Nat.zero_le _))
    · have hrun : delimiter ∉ block ++ [b] := by simp [hblock, Ne.symm hb]
      rw [List.append_cons block b x]
      by_cases hfull : block.length = 253
      · rw [cobsFrom_full z x hb hfull, List.append_cons block b (cobsFrom [] false x)]
        exact .full hrun (by simp [hfull]) (ih false List.not_mem_nil (Nat.zero_le _))
      · rw [cobsFrom_more z x hb hfull]
        exact ih z hrun (by simp; omega)

theorem stuffing_cobsEncode (x : Bytes) : Stuffing true x (cobsEncode x) :=
  stuffing_cobsFrom x true List.not_mem_nil (Nat.zero_le _)

theorem codeByte_toNat {n : Nat} (h : n ≤ 253) : (BitVec.ofNat 8 (n + 1)).toNat = n + 1 := by
  rw [BitVec.toNat_ofNat]
  omega

theorem codeByte_ne_delimiter {n : Nat} (h : n ≤ 253) : BitVec.ofNat 8 (n + 1) ≠ delimiter := by
  intro hcode
  have hnat := codeByte_toNat h
  simp [hcode] at hnat

/-! ## What is written (R123, R125) -/

theorem Stuffing.noDelimiter {z : Bool} {x y : Bytes} (h : Stuffing z x y) : delimiter ∉ y := by
  induction h with
  | nothing => exact List.not_mem_nil
  | last hrun hlen _ => simp [hrun, (codeByte_ne_delimiter hlen).symm]
  | zero hrun hlen _ ih => simp [hrun, ih, (codeByte_ne_delimiter hlen).symm]
  | full hrun _ _ ih =>
    have hcode : delimiter ≠ 0xFF#8 := by decide
    simp [hrun, ih, hcode]

theorem Stuffing.length_ge {z : Bool} {x y : Bytes} (h : Stuffing z x y) : x.length + z.toNat ≤ y.length := by
  induction h with
  | nothing => simp
  | @last z => simpa using z.toNat_le
  | @zero z run x y _ _ _ ih =>
    have hz := z.toNat_le
    simp only [List.length_append, List.length_cons, Bool.toNat_true] at ih ⊢
    omega
  | @full z run x y _ _ _ ih =>
    have hz := z.toNat_le
    simp only [List.length_append, List.length_cons, Bool.toNat_false] at ih ⊢
    omega

theorem Stuffing.length_le {z : Bool} {x y : Bytes} (h : Stuffing z x y) :
    y.length ≤ x.length + 1 + x.length / 254 := by
  induction h with
  | nothing => simp
  | last => simp
  | zero _ _ _ ih =>
    simp only [List.length_append, List.length_cons]
    omega
  | full _ hlen _ ih =>
    simp only [List.length_append, List.length_cons, hlen]
    omega

/-- Without a zero, there is one code byte for each begun piece of 254 bytes. -/
theorem Stuffing.length_of_noDelimiter {z : Bool} {x y : Bytes} (h : Stuffing z x y) (hx : delimiter ∉ x)
    (hz : z = false ∨ x ≠ []) : y.length = x.length + (x.length + 253) / 254 := by
  induction h with
  | nothing => rfl
  | @last z run _ hlen hend =>
    have hpos : 0 < run.length := by
      obtain hne | rfl := hend
      · exact Nat.pos_of_ne_zero hne
      · exact List.length_pos_iff.mpr (hz.resolve_left nofun)
    simp only [List.length_cons]
    omega
  | zero => simp at hx
  | full _ hlen _ ih =>
    have ih := ih (fun hmem => hx (List.mem_append_right _ hmem)) (.inl rfl)
    simp only [List.length_append, List.length_cons, hlen]
    omega

theorem cobsEncode_length_ge (x : Bytes) : x.length + 1 ≤ (cobsEncode x).length := (stuffing_cobsEncode x).length_ge

theorem cobsEncode_length_le (x : Bytes) : (cobsEncode x).length ≤ x.length + 1 + x.length / 254 :=
  (stuffing_cobsEncode x).length_le

theorem cobsEncode_noDelimiter (x : Bytes) : delimiter ∉ cobsEncode x := (stuffing_cobsEncode x).noDelimiter

/-! ## Decoding what was encoded (R124, R140) -/

/-- A full block stands for its bytes alone, whether input follows it or not. -/
theorem cobsBlocks_full {n : Nat} {run : Bytes} (rest : Bytes) (hrun : delimiter ∉ run) (hlen : run.length = 254) :
    cobsBlocks (n + 1) (0xFF#8 :: (run ++ rest)) = (cobsBlocks n rest).map (run ++ ·) := by
  have hcode : (0xFF#8 : Byte) ≠ delimiter := by decide
  by_cases hrest : rest = []
  · subst hrest
    rw [List.append_nil, cobsBlocks_last hcode hrun hlen, cobsBlocks_nil]
    simp [Except.map]
  · exact cobsBlocks_more hcode hrun hlen hrest

theorem Stuffing.cobsBlocks_eq_ok {z : Bool} {x y : Bytes} (h : Stuffing z x y) {n : Nat} (hn : y.length ≤ n) :
    cobsBlocks n y = .ok x := by
  induction h generalizing n with
  | nothing => exact cobsBlocks_nil n
  | last hrun hlen _ =>
    obtain ⟨m, rfl⟩ := Nat.exists_eq_add_one_of_ne_zero (Nat.ne_zero_of_lt hn)
    exact cobsBlocks_last (codeByte_ne_delimiter hlen) hrun (by rw [codeByte_toNat hlen]; rfl)
  | @zero z run x y hrun hlen hrest ih =>
    obtain ⟨m, rfl⟩ := Nat.exists_eq_add_one_of_ne_zero (Nat.ne_zero_of_lt hn)
    have hy : y ≠ [] := List.ne_nil_of_length_pos (Nat.lt_of_lt_of_le (Nat.succ_pos _) hrest.length_ge)
    have hm : y.length ≤ m := by simp at hn; omega
    have hcode : run.length + 1 < 255 := by omega
    rw [cobsBlocks_more (codeByte_ne_delimiter hlen) hrun (by rw [codeByte_toNat hlen]; rfl) hy, ih hm]
    simp [Except.map, codeByte_toNat hlen, hcode]
  | full hrun hlen _ ih =>
    obtain ⟨m, rfl⟩ := Nat.exists_eq_add_one_of_ne_zero (Nat.ne_zero_of_lt hn)
    rw [cobsBlocks_full _ hrun hlen, ih (by simp at hn; omega)]
    rfl

theorem cobsDecode_cobsEncode (x : Bytes) : cobsDecode (cobsEncode x) = .ok x :=
  (stuffing_cobsEncode x).cobsBlocks_eq_ok (Nat.le_refl _)

/-! ## The wire frame (R126, R130) -/

theorem wire_length (f : Frame) : (wire f).length = (cobsEncode (raw f)).length + 1 := by
  simp [wire]

theorem wire_length_ge (f : Frame) : 10 + f.data.length ≤ (wire f).length := by
  have h := cobsEncode_length_ge (raw f)
  rw [raw_length] at h
  rw [wire_length]
  omega

theorem wire_length_le (f : Frame) : (wire f).length ≤ 10 + f.data.length + (8 + f.data.length) / 254 := by
  have h := cobsEncode_length_le (raw f)
  rw [raw_length] at h
  rw [wire_length]
  omega

theorem wire_count_delimiter (f : Frame) : (wire f).count delimiter = 1 := by
  simp [wire, List.count_eq_zero_of_not_mem (cobsEncode_noDelimiter (raw f))]

end Sys2Proof.Machine

namespace Sys2Proof.Safety

open Sys2Proof.Machine

/-! ## Decoding the wire frame (R145) -/

/-- The raw block of a frame passes every check of R145. -/
theorem checkRaw_raw {f : Frame} (hf : f.wellFormed = true) : checkRaw (raw f) = .ok f := by
  obtain ⟨hlen, htype, hlength, hdata, hcrc⟩ := rawBlockLayout f hf
  have hbody : 8 + f.data.length - 4 = 4 + f.data.length := by omega
  simp only [checkRaw, Config.minRaw, Config.crcLen, Config.hdrLen, hlen, hbody, htype, hlength, hdata, hcrc]
  simp

theorem decodeFrame_wire {f : Frame} (hf : f.wellFormed = true) : decodeFrame (wire f) = .ok f := by
  have hne : wire f ≠ [] := by simp [wire]
  have hstrip : stripTerminator (wire f) = cobsEncode (raw f) := stripTerminator_append _
  simp only [decodeFrame, if_neg hne, hstrip, cobsDecode_cobsEncode, checkRaw_raw hf]

/-! ## The obligations -/

/-- Settles O19: by induction on the blocks of the encoding, each decoded by one turn of the decoder's loop. -/
theorem cobsRoundTrip : Obligations.CobsRoundTrip := cobsDecode_cobsEncode

/-- Settles O18: a run holds no zero and a code byte is at least 1, by induction on the blocks. -/
theorem cobsEncodingHasNoZero : Obligations.CobsEncodingHasNoZero := cobsEncode_noDelimiter

/-- Settles O20: both bounds by induction on the blocks; without a zero every block but the last is full, which fixes the length. -/
theorem cobsLengthBounds : Obligations.CobsLengthBounds := by
  have hexact : ∀ x : Bytes, delimiter ∉ x → x.length ≠ 0 →
      (cobsEncode x).length = x.length + (x.length + 253) / 254 := fun x hx hne =>
    (stuffing_cobsEncode x).length_of_noDelimiter hx (.inr fun hnil => hne (by rw [hnil]; rfl))
  refine ⟨fun x => ⟨cobsEncode_length_ge x, cobsEncode_length_le x⟩, ?_, ?_⟩
  · intro x hx hmod
    rw [hexact x hx (by omega)]
    omega
  · intro x hx
    refine ⟨?_, ?_, ?_⟩ <;> intro hlen <;> rw [hexact x hx (by omega), hlen]

/-- Settles O23: the terminator is the one zero, since the encoding holds none, and the bounds are those of the encoding of the
`8 + L` bytes of the raw block. -/
theorem wireFrame : Obligations.WireFrame := by
  refine ⟨fun f => ⟨rfl, wire_count_delimiter f, by simp [wire]⟩, ?_, ?_⟩
  · intro f hf
    have hmax : f.data.length ≤ 65535 := of_decide_eq_true hf
    have hle := wire_length_le f
    refine ⟨wire_length_ge f, hle, ?_⟩
    simp only [Config.maxWire]
    omega
  · intro f hempty
    have hge := wire_length_ge f
    have hle := wire_length_le f
    omega

/-- Settles O24: in `IDLE` the length of the payload decides the completion, and an OK completion comes from the branch that
accepted the whole payload, whose wire bytes decode to its frame. -/
theorem encodeCommand : Obligations.EncodeCommand := by
  refine ⟨?_, ?_, ?_⟩
  · intro type din s hphase hfits
    have hp : payloadTooLong din = false := Bool.eq_false_iff.mpr fun h => by
      have := (payloadTooLong_iff din).mp h
      omega
    exact exec_encode_idle_fits type hphase hp
  · intro type din s hphase hlong
    exact exec_encode_idle_tooLong type hphase ((payloadTooLong_iff din).mpr hlong)
  · intro type din out s t v hexec htrace
    obtain ⟨-, ⟨-, rfl⟩ | ⟨hp, rfl⟩⟩ := execEncode_next hexec
    · simp at htrace
    · obtain ⟨-, rfl⟩ : 0 = v ∧ wire ⟨type, din⟩ = out := by simpa using htrace
      refine decodeFrame_wire (decide_eq_true ?_)
      simpa [payloadTooLong] using hp

end Sys2Proof.Safety

namespace Sys2Proof.Machine

/-! ## The checks on a destuffed block, in their order (R145 to R149) -/

theorem checkRaw_of_short {r : Bytes} (hlen : r.length < 8) : checkRaw r = .error .invalidLength := by
  simp [checkRaw, Config.minRaw, hlen]

theorem checkRaw_of_crc_ne {r : Bytes} (hlen : 8 ≤ r.length)
    (hcrc : crc32 (r.take (r.length - 4)) ≠ rdLe32 r (r.length - 4)) : checkRaw r = .error .invalidCrc := by
  simp [checkRaw, Config.minRaw, Config.crcLen, Nat.not_lt.mpr hlen, hcrc]

theorem checkRaw_of_lengthField_ne {r : Bytes} (hlen : 8 ≤ r.length)
    (hcrc : crc32 (r.take (r.length - 4)) = rdLe32 r (r.length - 4)) (hfield : (rdLe16 r 2).toNat ≠ r.length - 8) :
    checkRaw r = .error .invalidLength := by
  simp [checkRaw, Config.minRaw, Config.crcLen, Nat.not_lt.mpr hlen, hcrc, hfield]

theorem checkRaw_of_valid {r : Bytes} (hlen : 8 ≤ r.length)
    (hcrc : crc32 (r.take (r.length - 4)) = rdLe32 r (r.length - 4)) (hfield : (rdLe16 r 2).toNat = r.length - 8) :
    checkRaw r = .ok ⟨rdLe16 r 0, (r.drop 4).take (r.length - 8)⟩ := by
  simp [checkRaw, Config.minRaw, Config.crcLen, Config.hdrLen, Nat.not_lt.mpr hlen, hcrc, hfield]

/-- A block that yields a frame passed every check. -/
theorem checkRaw_ok {r : Bytes} {f : Frame} (h : checkRaw r = .ok f) :
    8 ≤ r.length ∧ crc32 (r.take (r.length - 4)) = rdLe32 r (r.length - 4) ∧ (rdLe16 r 2).toNat = r.length - 8 ∧
      f = ⟨rdLe16 r 0, (r.drop 4).take (r.length - 8)⟩ := by
  by_cases hlen : 8 ≤ r.length
  · by_cases hcrc : crc32 (r.take (r.length - 4)) = rdLe32 r (r.length - 4)
    · by_cases hfield : (rdLe16 r 2).toNat = r.length - 8
      · rw [checkRaw_of_valid hlen hcrc hfield] at h
        exact ⟨hlen, hcrc, hfield, (Except.ok.inj h).symm⟩
      · rw [checkRaw_of_lengthField_ne hlen hcrc hfield] at h
        cases h
    · rw [checkRaw_of_crc_ne hlen hcrc] at h
      cases h
  · rw [checkRaw_of_short (Nat.lt_of_not_le hlen)] at h
    cases h

/-! ## The decoder, from the destuffed block on (R143 to R145) -/

@[simp] theorem decodeFrame_nil : decodeFrame [] = .error .invalidLength := rfl

@[simp] theorem cobsDecode_nil : cobsDecode [] = .ok [] := rfl

theorem decodeFrame_of_destuffed {p r : Bytes} (hp : p ≠ []) (h : cobsDecode (stripTerminator p) = .ok r) :
    decodeFrame p = checkRaw r := by
  simp only [decodeFrame, if_neg hp, h]

theorem decodeFrame_of_cobsError {p : Bytes} {k : ErrorKind} (hp : p ≠ [])
    (h : cobsDecode (stripTerminator p) = .error k) : decodeFrame p = .error .decodeError := by
  simp only [decodeFrame, if_neg hp, h]

/-- A packet that yields a frame has a destuffed block, and its checks yield the frame. -/
theorem decodeFrame_ok {p : Bytes} {f : Frame} (h : decodeFrame p = .ok f) :
    ∃ r, cobsDecode (stripTerminator p) = .ok r ∧ checkRaw r = .ok f := by
  have hp : p ≠ [] := by
    rintro rfl
    cases h
  cases hr : cobsDecode (stripTerminator p) with
  | error k =>
    rw [decodeFrame_of_cobsError hp hr] at h
    cases h
  | ok r => exact ⟨r, rfl, (decodeFrame_of_destuffed hp hr).symm.trans h⟩

theorem stripTerminator_of_noDelimiter {p : Bytes} (h : delimiter ∉ p) : stripTerminator p = p :=
  stripTerminator_of_last_ne fun hlast => h (List.mem_of_getLast? hlast)

/-- The terminator is optional (R144). -/
theorem decodeFrame_append_delimiter {p : Bytes} (hp : p ≠ []) (h : delimiter ∉ p) :
    decodeFrame (p ++ [delimiter]) = decodeFrame p := by
  have hne : p ++ [delimiter] ≠ [] := by simp
  simp only [decodeFrame, if_neg hp, if_neg hne, stripTerminator_append, stripTerminator_of_noDelimiter h]

theorem cobsEncode_ne_nil (x : Bytes) : cobsEncode x ≠ [] :=
  List.ne_nil_of_length_pos (Nat.lt_of_lt_of_le (Nat.succ_pos _) (cobsEncode_length_ge x))

/-- An encoded block is checked as it was before encoding, with and without the terminator. -/
theorem decodeFrame_cobsEncode (x : Bytes) : decodeFrame (cobsEncode x) = checkRaw x :=
  decodeFrame_of_destuffed (cobsEncode_ne_nil x) <| by
    rw [stripTerminator_of_noDelimiter (cobsEncode_noDelimiter x), cobsDecode_cobsEncode]

theorem decodeFrame_cobsEncode_terminated (x : Bytes) : decodeFrame (cobsEncode x ++ [delimiter]) = checkRaw x :=
  (decodeFrame_append_delimiter (cobsEncode_ne_nil x) (cobsEncode_noDelimiter x)).trans (decodeFrame_cobsEncode x)

/-! ## The CRC separates blocks that differ in one byte (R101, R102) -/

/-- A turn of the loop loses nothing: a set bit shifted out leaves the top bit of the polynomial. -/
theorem crcBit_eq_zero {s : Word} (h : crcBit s = 0) : s = 0 := by
  cases hlow : s.getLsbD 0 with
  | false =>
    rw [crcBit_of_bit0_clear hlow] at h
    apply BitVec.eq_of_getLsbD_eq
    intro i hi
    cases i with
    | zero => simpa using hlow
    | succ i => simpa [Nat.add_comm] using congrArg (·.getLsbD i) h
  | true =>
    rw [crcBit_eq_shift_xor_feedback, hlow] at h
    simpa [crcFeedback, crcPoly] using congrArg (·.getLsbD 31) h

theorem crcBits_eq_zero {n : Nat} {s : Word} (h : crcBits n s = 0) : s = 0 := by
  induction n generalizing s with
  | zero => exact h
  | succ n ih => exact crcBit_eq_zero (ih h)

/-- Linear with a trivial kernel. -/
theorem crcBits_injective (n : Nat) : Function.Injective (crcBits n) := by
  intro s t h
  have hzero : s ^^^ t = 0 := crcBits_eq_zero <| by rw [crcBits_xor, h, BitVec.xor_self]; rfl
  exact BitVec.xor_eq_zero_iff.mp hzero

/-- Registers that differ stay different over the same message. -/
theorem crcRun_injective (m : Bytes) : Function.Injective (crcRun · m) := by
  intro s t h
  induction m generalizing s t with
  | nil => exact h
  | cons b m ih => exact (BitVec.xor_left_inj _).mp (crcBits_injective 8 (ih h))

/-- From one register, different bytes lead to different registers. -/
theorem crcByte_injective (s : Word) : Function.Injective (crcByte s) := by
  intro b c h
  have hext : b.zeroExtend 32 = c.zeroExtend 32 := (BitVec.xor_right_inj _).mp (crcBits_injective 8 h)
  simpa using congrArg (BitVec.setWidth 8) hext

/-- Changing one byte changes the CRC: the registers part at that byte and never meet again. -/
theorem crc32_set_ne {m : Bytes} {i : Nat} {x : Byte} (hi : i < m.length) (hx : x ≠ m[i]) :
    crc32 (m.set i x) ≠ crc32 m := by
  intro h
  have hrun : crcRun crcInit (m.set i x) = crcRun crcInit m := (BitVec.xor_left_inj _).mp h
  rw [List.set_eq_take_cons_drop x hi] at hrun
  have hsplit : m = m.take i ++ m[i] :: m.drop (i + 1) := by
    rw [← List.drop_eq_getElem_cons hi, List.take_append_drop]
  have hparts : crcRun (crcByte (crcRun crcInit (m.take i)) x) (m.drop (i + 1)) =
      crcRun (crcByte (crcRun crcInit (m.take i)) m[i]) (m.drop (i + 1)) := by
    rw [← crcRun_cons, ← crcRun_cons, ← crcRun_append, ← crcRun_append, ← hsplit, hrun]
  exact hx (crcByte_injective _ (crcRun_injective _ hparts))

/-- A message that leads the register back to where it was does so any number of times. -/
theorem crcRun_replicate_cycle {s : Word} {m : Bytes} (h : crcRun s m = s) (n : Nat) :
    crcRun s (List.replicate n m).flatten = s := by
  induction n with
  | zero => rfl
  | succ n ih => rw [List.replicate_succ, List.flatten_cons, crcRun_append, h, ih]

/-! ## Bytes read as a word and written back (R20) -/

theorem extractLsb'_byteInPlace_same (x : Byte) {k : Nat} (hk : k + 8 ≤ 32) :
    ((x.zeroExtend 32 : Word) <<< k).extractLsb' k 8 = x := by
  apply BitVec.eq_of_getLsbD_eq
  intro i hi
  simp [hi, show k + i < 32 by omega]

theorem extractLsb'_byteInPlace_other (x : Byte) {j k : Nat} (h : j + 8 ≤ k ∨ k + 8 ≤ j) :
    ((x.zeroExtend 32 : Word) <<< k).extractLsb' j 8 = 0 := by
  apply BitVec.eq_of_getLsbD_eq
  intro i hi
  obtain hbelow | habove := h
  · simp [show j + i < k by omega]
  · simp [BitVec.getLsbD_of_ge x (j + i - k) (by omega)]

/-- The converse of `rdLe32_le32`. -/
theorem le32_rdLe32 (a b c d : Byte) : le32 (rdLe32 [a, b, c, d] 0) = [a, b, c, d] := by
  have hword : rdLe32 [a, b, c, d] 0 = a.zeroExtend 32 <<< 0 ||| b.zeroExtend 32 <<< 8 ||| c.zeroExtend 32 <<< 16 |||
      d.zeroExtend 32 <<< 24 := by simp [rdLe32]
  simp [le32, hword, BitVec.extractLsb'_or, extractLsb'_byteInPlace_same, extractLsb'_byteInPlace_other,
    -BitVec.truncate_eq_setWidth, -BitVec.shiftLeft_zero]

theorem rdLe32_injective {t u : Bytes} (ht : t.length = 4) (hu : u.length = 4) (h : rdLe32 t 0 = rdLe32 u 0) : t = u := by
  obtain ⟨a, b, c, d, rfl⟩ := List.length_eq_four.mp ht
  obtain ⟨a', b', c', d', rfl⟩ := List.length_eq_four.mp hu
  rw [← le32_rdLe32 a b c d, h, le32_rdLe32]

theorem rdLe32_set_ne {t : Bytes} (ht : t.length = 4) {i : Nat} {x : Byte} (hi : i < t.length) (hx : x ≠ t[i]) :
    rdLe32 (t.set i x) 0 ≠ rdLe32 t 0 := by
  intro h
  have hset : t.set i x = t := rdLe32_injective (by simpa using ht) ht h
  have hbyte : (t.set i x)[i]? = t[i]? := by rw [hset]
  rw [List.getElem?_set_self hi, List.getElem?_eq_getElem hi] at hbyte
  exact hx (Option.some.inj hbyte)

/-! ## A raw block with one byte changed (R153) -/

/-- A body and a trailer that is not the CRC of the body. -/
theorem checkRaw_append_of_crc_ne {body trailer : Bytes} (hbody : 4 ≤ body.length) (htrailer : trailer.length = 4)
    (hcrc : crc32 body ≠ rdLe32 trailer 0) : checkRaw (body ++ trailer) = .error .invalidCrc := by
  have hlen : (body ++ trailer).length - 4 = body.length + 0 := by simp [htrailer]
  apply checkRaw_of_crc_ne
  · simp only [List.length_append]
    omega
  · rwa [hlen, rdLe32_append, Nat.add_zero, List.take_left]

/-- A changed byte of header or body changes the CRC and leaves the trailer; one of the trailer does the opposite. -/
theorem checkRaw_set_raw (f : Frame) {i : Nat} {x : Byte} (hi : i < (raw f).length) (hx : x ≠ (raw f)[i]) :
    checkRaw ((raw f).set i x) = .error .invalidCrc := by
  have hbody : 4 ≤ (hdr f ++ f.data).length := by simp
  by_cases hin : i < (hdr f ++ f.data).length
  · have hx : x ≠ (hdr f ++ f.data)[i] := by simpa only [raw, List.getElem_append_left hin] using hx
    rw [raw, List.set_append_left _ _ hin]
    apply checkRaw_append_of_crc_ne (by simp) (le32_length _)
    rw [rdLe32_le32]
    exact crc32_set_ne hin hx
  · have hin := Nat.le_of_not_lt hin
    have htrailer : i - (hdr f ++ f.data).length < (le32 (crc32 (hdr f ++ f.data))).length := by
      have hlen := hi
      rw [raw, List.length_append] at hlen
      omega
    have hx : x ≠ (le32 (crc32 (hdr f ++ f.data)))[i - (hdr f ++ f.data).length] := by
      simpa only [raw, List.getElem_append_right hin] using hx
    rw [raw, List.set_append_right _ _ hin]
    apply checkRaw_append_of_crc_ne hbody (by simp)
    simpa only [rdLe32_le32] using (rdLe32_set_ne (le32_length _) htrailer hx).symm

end Sys2Proof.Machine

namespace Sys2Proof.Safety

open Sys2Proof.Machine

/-! ## The walk of R141, one block at a time -/

/-- Cause Z1, Z2 or T at the code byte `c`, with `rest` after it. -/
def FailsAtCode (c : Byte) (rest : Bytes) : Prop :=
  c = delimiter ∨ delimiter ∈ rest.take (c.toNat - 1) ∨ rest.length < c.toNat - 1

/-- The code byte `c` is followed by exactly the data bytes it claims, none of them zero. -/
structure WholeBlock (c : Byte) (block : Bytes) : Prop where
  code : c ≠ delimiter
  length : block.length = c.toNat - 1
  noDelimiter : delimiter ∉ block

/-- Unless a cause of R141 stands at the code byte, a whole block does. -/
theorem failsAtCode_or_wholeBlock (c : Byte) (rest : Bytes) :
    FailsAtCode c rest ∨ ∃ block tail, rest = block ++ tail ∧ WholeBlock c block := by
  by_cases h : FailsAtCode c rest
  · exact .inl h
  · obtain ⟨hcode, hdata, hlen⟩ : c ≠ delimiter ∧ delimiter ∉ rest.take (c.toNat - 1) ∧ ¬rest.length < c.toNat - 1 := by
      simpa only [FailsAtCode, not_or] using h
    exact .inr ⟨_, _, (List.take_append_drop _ rest).symm, hcode, by simp; omega, hdata⟩

theorem FailsAtCode.cobsFails {c : Byte} {rest : Bytes} (h : FailsAtCode c rest) : CobsFails (c :: rest) := by
  by_cases hcode : c = delimiter
  · subst hcode
    exact .zeroCode rest
  · obtain hdata | hlen := h.resolve_left hcode
    · exact .zeroInside c rest hcode hdata
    · exact .truncated c rest hcode hlen

theorem FailsAtCode.cobsBlocks {c : Byte} {rest : Bytes} (h : FailsAtCode c rest) (n : Nat) :
    cobsBlocks (n + 1) (c :: rest) = .error .decodeError := by
  simp only [Machine.cobsBlocks]
  by_cases hcode : c = delimiter
  · rw [if_pos hcode]
  · rw [if_neg hcode]
    by_cases hdata : delimiter ∈ rest.take (c.toNat - 1)
    · rw [if_pos hdata]
    · rw [if_neg hdata, if_pos ((h.resolve_left hcode).resolve_left hdata)]

theorem WholeBlock.cobsFails_iff {c : Byte} {block : Bytes} (h : WholeBlock c block) (tail : Bytes) :
    CobsFails (c :: (block ++ tail)) ↔ CobsFails tail := by
  obtain ⟨hcode, hlen, hdata⟩ := h
  refine ⟨fun hfails => ?_, .later c block tail hcode hlen hdata⟩
  generalize hrest : block ++ tail = rest at hfails
  cases hfails with
  | zeroCode => exact absurd rfl hcode
  | zeroInside _ _ _ hzero => simp [← hrest, ← hlen, hdata] at hzero
  | truncated _ _ _ hshort =>
    rw [← hrest, List.length_append] at hshort
    omega
  | later _ block' tail' _ hlen' _ htail =>
    obtain ⟨-, rfl⟩ := List.append_inj hrest (hlen.trans hlen'.symm)
    exact htail

theorem WholeBlock.cobsBlocks_error_iff {c : Byte} {block : Bytes} (h : WholeBlock c block) (n : Nat) (tail : Bytes)
    (k : ErrorKind) : cobsBlocks (n + 1) (c :: (block ++ tail)) = .error k ↔ cobsBlocks n tail = .error k := by
  obtain ⟨hcode, hlen, hdata⟩ := h
  by_cases htail : tail = []
  · subst htail
    rw [List.append_nil, cobsBlocks_last hcode hdata hlen, cobsBlocks_nil]
    simp
  · rw [cobsBlocks_more hcode hdata hlen htail]
    cases cobsBlocks n tail <;> simp [Except.map]

theorem not_cobsFails_nil : ¬CobsFails [] := nofun

/-- The decoder's loop fails exactly where the walk of R141 does. -/
theorem cobsBlocks_error_iff {n : Nat} {y : Bytes} (hn : y.length ≤ n) (k : ErrorKind) :
    cobsBlocks n y = .error k ↔ k = .decodeError ∧ CobsFails y := by
  induction n generalizing y with
  | zero =>
    obtain rfl := List.length_eq_zero_iff.mp (Nat.le_zero.mp hn)
    simp [not_cobsFails_nil]
  | succ n ih =>
    cases y with
    | nil => simp [not_cobsFails_nil]
    | cons c rest =>
      obtain hcause | ⟨block, tail, rfl, hblock⟩ := failsAtCode_or_wholeBlock c rest
      · simp [hcause.cobsBlocks n, hcause.cobsFails, eq_comm]
      · have htail : tail.length ≤ n := by
          simp only [List.length_cons, List.length_append] at hn
          omega
        rw [hblock.cobsBlocks_error_iff, hblock.cobsFails_iff, ih htail]

theorem cobsDecode_error_iff (y : Bytes) (k : ErrorKind) :
    cobsDecode y = .error k ↔ k = .decodeError ∧ CobsFails y :=
  cobsBlocks_error_iff (Nat.le_refl _) k

/-- A zero is a code byte (Z1), among a block's data (Z2), or in a later block. -/
theorem cobsFails_of_delimiter_mem {y : Bytes} (h : delimiter ∈ y) : CobsFails y := by
  induction hn : y.length using Nat.strong_induction_on generalizing y with
  | _ n ih =>
    cases y with
    | nil => cases h
    | cons c rest =>
      obtain hcause | ⟨block, tail, rfl, hblock⟩ := failsAtCode_or_wholeBlock c rest
      · exact hcause.cobsFails
      · have htail : delimiter ∈ tail := by
          simpa [hblock.code.symm, hblock.noDelimiter] using h
        have hshorter : tail.length < n := by
          rw [← hn, List.length_cons, List.length_append]
          omega
        exact (hblock.cobsFails_iff tail).mpr (ih _ hshorter htail rfl)

/-! ## A full last block closed once more (R142) -/

/-- A run of 254 nonzero bytes, with the empty block the encoder leaves out. -/
theorem cobsDecode_fullBlock_closed {run : Bytes} (hrun : delimiter ∉ run) (hlen : run.length = 254) :
    cobsDecode (0xFF#8 :: (run ++ [0x01#8])) = .ok run := by
  have hempty (n : Nat) : cobsBlocks (n + 1) [0x01#8] = .ok [] := cobsBlocks_last (by decide) List.not_mem_nil rfl
  rw [cobsDecode, List.length_cons, cobsBlocks_full _ hrun hlen, List.length_append, List.length_singleton, hempty]
  simp [Except.map]

theorem cobsDecode_fullBlock {run : Bytes} (hrun : delimiter ∉ run) (hlen : run.length = 254) :
    cobsDecode (0xFF#8 :: run) = .ok run := by
  rw [cobsDecode, List.length_cons]
  exact cobsBlocks_last (by decide) hrun hlen

/-- What encodes to it would decode to the run, and the run's encoding is a byte shorter. -/
theorem cobsEncode_ne_fullBlock_closed {run : Bytes} (hrun : delimiter ∉ run) (hlen : run.length = 254) (x : Bytes) :
    cobsEncode x ≠ 0xFF#8 :: (run ++ [0x01#8]) := by
  intro h
  have hx : x = run := Except.ok.inj <| by rw [← cobsDecode_cobsEncode x, h, cobsDecode_fullBlock_closed hrun hlen]
  have hne : run ≠ [] := List.ne_nil_of_length_pos (by omega)
  have hshort := (stuffing_cobsEncode run).length_of_noDelimiter hrun (.inr hne)
  rw [← hx, h, hx] at hshort
  simp [hlen] at hshort

/-- Five bytes that lead the CRC register from its value after the header of `fullBlockFrame` back to that value. -/
def registerCycle : Bytes := [0x01#8, 0x59#8, 0x7E#8, 0x50#8, 0x8C#8]

/-- A frame whose raw block ends in 254 nonzero bytes, so that its encoding ends in a full block. -/
def fullBlockFrame : Frame := ⟨0x0101#16, (List.replicate 50 registerCycle).flatten⟩

/-- The raw block, its trailer written out. -/
def fullBlockRaw : Bytes := hdr fullBlockFrame ++ fullBlockFrame.data ++ [0x79#8, 0xDB#8, 0x69#8, 0x76#8]

theorem raw_fullBlockFrame : raw fullBlockFrame = fullBlockRaw := by
  have hheader : crcRun crcInit (hdr fullBlockFrame) = 0x89962486#32 := by decide +kernel
  have hcycle : crcRun 0x89962486#32 registerCycle = 0x89962486#32 := by decide +kernel
  have hcrc : crc32 (hdr fullBlockFrame ++ fullBlockFrame.data) = 0x7669DB79#32 := by
    rw [crc32, crcRun_append, hheader, fullBlockFrame, crcRun_replicate_cycle hcycle]
    rfl
  rw [raw, hcrc]
  rfl

/-- Its encoding, followed by the empty block the encoder leaves out. -/
def fullBlockPacket : Bytes := cobsEncode fullBlockRaw ++ [0x01#8]

theorem fullBlockPacket_noDelimiter : delimiter ∉ fullBlockPacket := by
  simp [fullBlockPacket, cobsEncode_noDelimiter]

theorem cobsDecode_fullBlockPacket : cobsDecode fullBlockPacket = .ok (raw fullBlockFrame) := by
  rw [raw_fullBlockFrame]
  decide +kernel

theorem decodeFrame_fullBlockPacket : decodeFrame fullBlockPacket = .ok fullBlockFrame := by
  have hne : fullBlockPacket ≠ [] := by simp [fullBlockPacket]
  have hstrip := stripTerminator_of_noDelimiter fullBlockPacket_noDelimiter
  rw [decodeFrame_of_destuffed hne (by rw [hstrip, cobsDecode_fullBlockPacket])]
  exact checkRaw_raw (by decide +kernel)

/-! ## One flipped bit -/

theorem xor_bit_ne (x : Byte) {b : Nat} (hb : b < 8) : x ^^^ (1#8 <<< b) ≠ x := by
  intro h
  simpa [hb] using congrArg (·.getLsbD b) h

/-! ## The obligations -/

/-- Settles O30: with or without the terminator the decoder checks the raw block itself, which passes. -/
theorem frameRoundTrip : Obligations.FrameRoundTrip := fun f hf =>
  ⟨decodeFrame_wire hf, (decodeFrame_cobsEncode (raw f)).trans (checkRaw_raw hf)⟩

/-- Settles O25: by induction on the blocks, each either a cause of R141 or passed by both the loop and the walk. -/
theorem cobsDecodingFailsExactly : Obligations.CobsDecodingFailsExactly := by
  refine ⟨fun y => ?_, fun y k h => ((cobsDecode_error_iff y k).mp h).1, not_cobsFails_nil, fun x hfails => ?_⟩
  · simpa using cobsDecode_error_iff y .decodeError
  · have herror := (cobsDecode_error_iff (cobsEncode x) .decodeError).mpr ⟨rfl, hfails⟩
    rw [cobsDecode_cobsEncode] at herror
    cases herror

/-- Settles O26: a full last block may be followed by an empty one, which adds nothing; an accepted frame passed the CRC check. -/
theorem nonCanonicalStuffingIsAccepted : Obligations.NonCanonicalStuffingIsAccepted := by
  refine ⟨fun run hrun hlen => ⟨cobsDecode_fullBlock_closed hrun hlen, cobsDecode_fullBlock hrun hlen,
    cobsEncode_ne_fullBlock_closed hrun hlen⟩, ⟨fullBlockPacket, fullBlockFrame, decodeFrame_fullBlockPacket,
    fullBlockPacket_noDelimiter, by simp [fullBlockPacket, wire, raw_fullBlockFrame]⟩, fun p f h => ?_⟩
  obtain ⟨r, hr, hcheck⟩ := decodeFrame_ok h
  obtain ⟨-, hcrc, -⟩ := checkRaw_ok hcheck
  exact ⟨r, hr, hcrc⟩

/-- Settles O27: only the last byte is stripped, and any zero that stays is one of the causes of R141. -/
theorem oneTerminatorIsStripped : Obligations.OneTerminatorIsStripped := by
  refine ⟨fun p => decodeFrame_append_delimiter, stripTerminator_append, fun p => stripTerminator_of_last_ne,
    fun p hmem => ?_, rfl⟩
  have hp : p ≠ [] := by
    rintro rfl
    simp [stripTerminator] at hmem
  exact decodeFrame_of_cobsError hp ((cobsDecode_error_iff _ _).mpr ⟨rfl, cobsFails_of_delimiter_mem hmem⟩)

/-- Settles O31: the flipped byte differs, and a raw block with one byte changed fails the CRC check. -/
theorem singleBitFlipGivesInvalidCrc : Obligations.SingleBitFlipGivesInvalidCrc := by
  intro f i b _ hi hb
  rw [decodeFrame_cobsEncode_terminated, flipBit]
  apply checkRaw_set_raw f hi
  rw [List.getD_eq_getElem _ _ hi]
  exact xor_bit_ne _ hb

/-- Settles O28: each clause is one exit of the decoder. -/
theorem decodeErrorPrecedence : Obligations.DecodeErrorPrecedence := by
  refine ⟨decodeFrame_nil, fun p k hp => decodeFrame_of_cobsError hp, fun p r hp hr => ?_⟩
  rw [decodeFrame_of_destuffed hp hr]
  exact ⟨checkRaw_of_short, checkRaw_of_crc_ne, checkRaw_of_lengthField_ne, checkRaw_of_valid⟩

/-- Settles O29: the empty packet is the one that is not destuffed, and an empty block would be too short as well. -/
theorem decodeLengthBoundary : Obligations.DecodeLengthBoundary := by
  refine ⟨fun p r hr hlen => ?_, fun p r hr hlen hfield hcrc => ?_, decodeFrame_nil⟩
  · by_cases hp : p = []
    · rw [hp, decodeFrame_nil]
    · rw [decodeFrame_of_destuffed hp hr, checkRaw_of_short hlen]
  · have hp : p ≠ [] := by
      rintro rfl
      obtain rfl : [] = r := Except.ok.inj hr
      cases hlen
    rw [decodeFrame_of_destuffed hp hr, checkRaw_of_valid (by omega) (by simpa [hlen] using hcrc) (by simp [hlen, hfield])]
    simp [hlen]

end Sys2Proof.Safety

namespace Sys2Proof.Machine

/-! ## EXTRACT and READ_FRAME in `IDLE` (R172, R180) -/

theorem exec_extract_packet (fetch : Bool) {s : State} {p rest : Bytes} (h : s.phase = .idle) (hp : delimiter ∉ p)
    (hs : s.rxbuf = p ++ delimiter :: rest) :
    exec (.extract fetch) s = .next (finishExtract p { s with rxbuf := rest, taken := s.taken ++ [p] }) := by
  obtain ⟨hfind, hpacket, htake⟩ := rxFind_packet hs hp
  simp only [exec, execExtract, whenIdle_idle h, hfind, hpacket, htake]

theorem exec_extract_noPacket {s : State} (h : s.phase = .idle) (hs : delimiter ∉ s.rxbuf) :
    exec (.extract false) s = .next (raise .absent s) := by
  simp [exec, execExtract, whenIdle_idle h, rxFind_none.mpr hs]

theorem exec_readFrame_packet {s : State} {p rest : Bytes} (h : s.phase = .idle) (hp : delimiter ∉ p)
    (hs : s.rxbuf = p ++ delimiter :: rest) :
    exec .readFrame s = .next (finishReadFrame p { s with rxbuf := rest, taken := s.taken ++ [p] }) := by
  obtain ⟨hfind, hpacket, htake⟩ := rxFind_packet hs hp
  simp only [exec, execReadFrame, whenIdle_idle h, hfind, hpacket, htake]

theorem exec_readFrame_noPacket {s : State} (h : s.phase = .idle) (hs : delimiter ∉ s.rxbuf) :
    exec .readFrame s = .next (beginFetch .readFrame s) := by
  simp [exec, execReadFrame, whenIdle_idle h, rxFind_none.mpr hs]

theorem finishReadFrame_ok {p : Bytes} {f : Frame} (s : State) (h : decodeFrame p = .ok f) :
    finishReadFrame p s = complete .ok (typeRval f.type) f.data s := by
  simp [finishReadFrame, h]

theorem finishReadFrame_error {p : Bytes} {k : ErrorKind} (s : State) (h : decodeFrame p = .error k) :
    finishReadFrame p s = raise .absent s := by
  simp [finishReadFrame, h]

/-! ## The answer step, one equation per case (R175) -/

theorem step_answer {s : State} {a : ReadAnswer} {rest : List Event} (hphase : s.phase = .fetchWait)
    (hinputs : s.inputs = .answer a :: rest) : step s = answerStep a { s with inputs := rest } := by
  rw [step_event hinputs]
  simp [deliver, deliverAnswer, hphase]

/-- The state in which the search for a packet starts: the answer is observed and `PEND` is cleared (R175). -/
def chunkAnswered (c : Bytes) (rest : List Event) (s : State) : State :=
  observe (.readAnswered (.chunk c)) { s with inputs := rest, pend := .none }

theorem step_chunk {s : State} {c : Bytes} {rest : List Event} (hphase : s.phase = .fetchWait)
    (hinputs : s.inputs = .answer (.chunk c) :: rest) (hlen : c.length ≤ s.params.readMax) :
    step s = takeChunk s.pend c (chunkAnswered c rest s) := by
  rw [step_answer hphase hinputs, answerStep, if_neg (Nat.not_lt.mpr hlen)]
  rfl

theorem takeChunk_overflow (k : Pend) {c : Bytes} {s : State} (h : overflows s.params s.rxbuf.length c.length = true) :
    takeChunk k c s = .next (raise .rxOverflow (setOvf s)) := by
  rw [takeChunk, if_pos h]

theorem takeChunk_noPacket (k : Pend) {c : Bytes} {s : State}
    (h : overflows s.params s.rxbuf.length c.length = false) (hs : delimiter ∉ s.rxbuf ++ c) :
    takeChunk k c s = .next (raise .absent (rxAppend c s)) := by
  simp [takeChunk, h, rxFind_none.mpr (show delimiter ∉ (rxAppend c s).rxbuf from hs)]

/-! A chunk that completes a packet: the waiting command finishes with that packet, which is taken from the longer buffer. -/

theorem takeChunk_extract_packet {c p tail : Bytes} {s : State}
    (h : overflows s.params s.rxbuf.length c.length = false) (hs : s.rxbuf ++ c = p ++ delimiter :: tail)
    (hp : delimiter ∉ p) :
    takeChunk .extract c s =
      .next (finishExtract p { s with rxbuf := tail, fed := s.fed ++ c, taken := s.taken ++ [p] }) := by
  obtain ⟨hfind, hpacket, htake⟩ := rxFind_packet (s := rxAppend c s) hs hp
  simp [takeChunk, h, hfind, finishFetch, hpacket, htake]

theorem takeChunk_readFrame_packet {c p tail : Bytes} {s : State}
    (h : overflows s.params s.rxbuf.length c.length = false) (hs : s.rxbuf ++ c = p ++ delimiter :: tail)
    (hp : delimiter ∉ p) :
    takeChunk .readFrame c s =
      .next (finishReadFrame p { s with rxbuf := tail, fed := s.fed ++ c, taken := s.taken ++ [p] }) := by
  obtain ⟨hfind, hpacket, htake⟩ := rxFind_packet (s := rxAppend c s) hs hp
  simp [takeChunk, h, hfind, finishFetch, hpacket, htake]

/-! ## OVF (R177) -/

@[simp] theorem finishExtract_ovf (p : Bytes) (s : State) : (finishExtract p s).ovf = s.ovf := rfl

@[simp] theorem finishReadFrame_ovf (p : Bytes) (s : State) : (finishReadFrame p s).ovf = s.ovf := by
  obtain ⟨f, -, h⟩ | ⟨k, -, h⟩ := finishReadFrame_cases p s <;> simp [h]

theorem finishFetch_ovf {k : Pend} {i : Nat} {s t : State} (h : finishFetch k i s = .next t) : t.ovf = s.ovf := by
  obtain ⟨-, rfl⟩ | ⟨-, rfl⟩ := finishFetch_next h <;> simp

/-- No command touches OVF. -/
theorem exec_ovf {i : Instr} {s t : State} (h : exec i s = .next t) : t.ovf = s.ovf := by
  cases i with
  | crc32 din =>
    obtain ⟨-, rfl⟩ := execCrc32_next h
    rfl
  | encode type din =>
    obtain ⟨-, ⟨-, rfl⟩ | ⟨-, rfl⟩⟩ := execEncode_next h
    · rfl
    · rfl
  | decode din =>
    obtain ⟨-, ⟨k, -, rfl⟩ | ⟨f, -, rfl⟩⟩ := execDecode_next h
    · rfl
    · rfl
  | send type din =>
    obtain ⟨-, ⟨-, rfl⟩ | ⟨-, -, rfl⟩ | ⟨-, -, rfl⟩⟩ := execSend_next h
    · rfl
    · rfl
    · rfl
  | extract fetch =>
    obtain ⟨-, ⟨i, -, rfl⟩ | ⟨-, -, rfl⟩ | ⟨-, -, rfl⟩⟩ := execExtract_next h
    · rfl
    · rfl
    · rfl
  | readFrame =>
    obtain ⟨-, ⟨i, -, rfl⟩ | ⟨-, rfl⟩⟩ := execReadFrame_next h
    · simp
    · rfl

theorem issueCommand_ovf {tx : Transaction} {s t : State} (h : issueCommand tx s = .next t) : t.ovf = s.ovf := by
  obtain ⟨-, ⟨why, -, rfl⟩ | ⟨i, -, hexec⟩⟩ := issueCommand_next h
  · rfl
  · exact exec_ovf hexec

/-- A chunk leaves OVF, or overflows a finite RX_CAP and sets it. -/
theorem takeChunk_ovf {k : Pend} {c : Bytes} {s t : State} (h : takeChunk k c s = .next t) :
    t.ovf = s.ovf ∨ (t.ovf = true ∧ s.params.rxCap ≠ none) := by
  obtain ⟨hover, rfl⟩ | ⟨-, -, rfl⟩ | ⟨-, i, -, hfetch⟩ := takeChunk_next h
  · obtain ⟨cap, hcap, -⟩ := (overflows_iff _ _ _).mp hover
    exact .inr ⟨rfl, by simp [hcap]⟩
  · exact .inl rfl
  · exact .inl (finishFetch_ovf (s := rxAppend c s) hfetch)

theorem answerStep_ovf {a : ReadAnswer} {s t : State} (h : answerStep a s = .next t) :
    t.ovf = s.ovf ∨ (t.ovf = true ∧ s.params.rxCap ≠ none) := by
  obtain ⟨-, rfl⟩ | ⟨c, -, -, hchunk⟩ := answerStep_next h
  · exact .inl rfl
  · exact takeChunk_ovf (s := chunkAnswered c s.inputs s) hchunk

/-- Everything a step can do to OVF: a reset clears it, an overflow of a finite RX_CAP sets it, and nothing else touches it. -/
theorem step_ovf {s t : State} (h : step s = .next t) :
    (∃ rest, s.inputs = .reset :: rest ∧ t.ovf = false) ∨ t.ovf = s.ovf ∨ (t.ovf = true ∧ s.params.rxCap ≠ none) := by
  obtain ⟨-, rfl⟩ | ⟨e, rest, hinputs, hevent⟩ := step_next h
  · exact .inr (.inl rfl)
  · obtain ⟨tx, -, hcommand⟩ | ⟨a, -, -, hanswer⟩ | ⟨a, -, -, rfl⟩ | ⟨a, -, rfl⟩ | ⟨rfl, rfl⟩ := hevent
    · exact .inr (.inl (issueCommand_ovf (s := { s with inputs := rest }) hcommand))
    · exact .inr (answerStep_ovf (s := { s with inputs := rest }) hanswer)
    · exact .inr (.inl rfl)
    · exact .inr (.inl rfl)
    · exact .inl ⟨rest, hinputs, rfl⟩

/-! ## A wire frame in the stream (R126, R171) -/

/-- The first delimiter of a wire frame ends its stuffed block. -/
theorem wire_append (f : Frame) (tail : Bytes) : wire f ++ tail = cobsEncode (raw f) ++ delimiter :: tail := by
  simp [wire]

theorem wire_eq (f : Frame) : wire f = cobsEncode (raw f) ++ delimiter :: [] := rfl

/-- What arrives of a wire frame before its last byte holds no delimiter. -/
theorem noDelimiter_of_append_eq_wire {f : Frame} {c d : Bytes} (h : c ++ d = wire f) (hd : d ≠ []) : delimiter ∉ c := by
  have hsplit : c ++ d.dropLast = cobsEncode (raw f) := by
    rw [← List.dropLast_append_of_ne_nil hd, h, wire, List.dropLast_concat]
  exact fun hc => cobsEncode_noDelimiter (raw f) (hsplit ▸ List.mem_append_left _ hc)

end Sys2Proof.Machine

namespace Sys2Proof.Safety

open Sys2Proof.Machine

/-! ## Steps in a row -/

theorem steps_succ_next {k : Nat} {s u : State} (h : steps (k + 1) s = .next u) :
    ∃ t, step s = .next t ∧ steps k t = .next u := by
  simp only [steps] at h
  split at h
  case h_1 t ht => exact ⟨t, ht, h⟩
  case h_2 => cases h
  case h_3 => cases h

/-- What every step keeps, every run keeps. -/
theorem steps_keeps {P : State → Prop} (hstep : ∀ s t, P s → step s = .next t → P t) {k : Nat} {s t : State}
    (hs : P s) (h : steps k s = .next t) : P t := by
  induction k generalizing s with
  | zero =>
    cases h
    exact hs
  | succ k ih =>
    obtain ⟨u, hu, hrun⟩ := steps_succ_next h
    exact ih (hstep s u hs hu) hrun

theorem steps_one (s : State) : steps 1 s = step s := by
  simp only [steps]
  split
  case h_1 h => exact h.symm
  case h_2 h => exact h.symm
  case h_3 h => exact h.symm

/-- A run goes on from where it has got to. -/
theorem steps_add_of_steps {j : Nat} (k : Nat) {s t : State} (h : steps j s = .next t) :
    steps (j + k) s = steps k t := by
  induction j generalizing s with
  | zero =>
    cases h
    rw [Nat.zero_add]
  | succ j ih =>
    obtain ⟨u, hu, hrun⟩ := steps_succ_next h
    rw [Nat.succ_add, steps, hu]
    exact ih hrun

theorem steps_two {s t : State} (h : step s = .next t) : steps 2 s = step t := by
  rw [steps_add_of_steps (j := 1) 1 ((steps_one s).trans h), steps_one]

/-! ## No byte is lost (R190) -/

/-- `C = p1 ++ [0x00] ++ ... ++ pk ++ [0x00] ++ RXBUF` (R190). -/
def Conserved (s : State) : Prop := s.fed = delimited s.taken ++ s.rxbuf

theorem BufferChange.conserved {c : Bytes} {ps : List Bytes} {s t : State} (h : BufferChange c ps s t)
    (hs : Conserved s) : Conserved t :=
  calc t.fed
    _ = delimited s.taken ++ (s.rxbuf ++ c) := by rw [h.fed, hs, List.append_assoc]
    _ = delimited t.taken ++ t.rxbuf := by rw [h.buffer, h.taken, delimited_append, List.append_assoc]

theorem conserved_of_reset {s t : State} {rest : List Event} (hinputs : s.inputs = .reset :: rest)
    (h : step s = .next t) : Conserved t := by
  obtain ⟨hrxbuf, hfed, htaken⟩ := (receiveBufferChanges s t h).1 ⟨rest, hinputs⟩
  simp [Conserved, hrxbuf, hfed, htaken]

theorem step_conserved {s t : State} (hs : Conserved s) (h : step s = .next t) : Conserved t := by
  by_cases hreset : ∃ rest, s.inputs = .reset :: rest
  · obtain ⟨rest, hinputs⟩ := hreset
    exact conserved_of_reset hinputs h
  · obtain ⟨c, ps, hchange, -, -⟩ := step_bufferStep hreset h
    exact hchange.conserved hs

/-! ## The step that takes a read answer (R175) -/

theorem overflows_eq_false_iff_withinCap (p : Params) (b c : Bytes) :
    overflows p b.length c.length = false ↔ WithinCap p (b ++ c) := by
  simp [overflows_eq_false, WithinCap]

theorem step_ioerr {s : State} {rest : List Event} (hphase : s.phase = .fetchWait)
    (hinputs : s.inputs = .answer .ioerr :: rest) :
    step s = .next { s with
      inputs := rest, phase := .idle, pend := .none,
      trace := s.trace ++ [.readAnswered .ioerr, .completion ⟨.transportError, 0, []⟩] } := by
  rw [step_answer hphase hinputs]
  simp [answerStep, raise, complete, observe]

theorem step_chunk_overflow {s : State} {c : Bytes} {rest : List Event} {cap : Nat} (hphase : s.phase = .fetchWait)
    (hinputs : s.inputs = .answer (.chunk c) :: rest) (hlen : c.length ≤ s.params.readMax)
    (hcap : s.params.rxCap = some cap) (hover : cap < s.rxbuf.length + c.length) :
    step s = .next { s with
      inputs := rest, phase := .idle, pend := .none, ovf := true,
      trace := s.trace ++ [.readAnswered (.chunk c), .completion ⟨.rxOverflow, 0, []⟩] } := by
  have hoverflows : overflows s.params s.rxbuf.length c.length = true := (overflows_iff _ _ _).mpr ⟨cap, hcap, hover⟩
  rw [step_chunk hphase hinputs hlen, takeChunk_overflow (s := chunkAnswered c rest s) _ hoverflows]
  simp [chunkAnswered, raise, complete, observe, setOvf]

/-! A chunk that fits. -/

section

variable {s : State} {c p tail : Bytes} {rest : List Event} (hphase : s.phase = .fetchWait)
  (hinputs : s.inputs = .answer (.chunk c) :: rest) (hlen : c.length ≤ s.params.readMax)
  (hcap : WithinCap s.params (s.rxbuf ++ c))

include hphase hinputs hlen hcap

theorem step_chunk_noPacket (hnone : delimiter ∉ s.rxbuf ++ c) :
    step s = .next { s with
      inputs := rest, phase := .idle, pend := .none, rxbuf := s.rxbuf ++ c, fed := s.fed ++ c,
      trace := s.trace ++ [.readAnswered (.chunk c), .completion ⟨.absent, 0, []⟩] } := by
  have hfits := (overflows_eq_false_iff_withinCap _ _ _).mpr hcap
  rw [step_chunk hphase hinputs hlen, takeChunk_noPacket (s := chunkAnswered c rest s) _ hfits hnone]
  simp [chunkAnswered, raise, complete, observe, rxAppend]

variable (hsplit : s.rxbuf ++ c = p ++ delimiter :: tail) (hp : delimiter ∉ p)

include hsplit hp

theorem step_chunk_extract (hpend : s.pend = .extract) :
    step s = .next { s with
      inputs := rest, phase := .idle, pend := .none, rxbuf := tail, fed := s.fed ++ c, taken := s.taken ++ [p],
      trace := s.trace ++ [.readAnswered (.chunk c), .completion ⟨.ok, 0, p⟩] } := by
  have hfits := (overflows_eq_false_iff_withinCap _ _ _).mpr hcap
  rw [step_chunk hphase hinputs hlen, hpend, takeChunk_extract_packet (s := chunkAnswered c rest s) hfits hsplit hp]
  simp [chunkAnswered, finishExtract, complete, observe]

/-- Whether the packet decodes is left to `finishReadFrame`. -/
theorem step_chunk_readFrame (hpend : s.pend = .readFrame) :
    step s = .next (finishReadFrame p { chunkAnswered c rest s with
      rxbuf := tail, fed := s.fed ++ c, taken := s.taken ++ [p] }) := by
  have hfits := (overflows_eq_false_iff_withinCap _ _ _).mpr hcap
  rw [step_chunk hphase hinputs hlen, hpend, takeChunk_readFrame_packet (s := chunkAnswered c rest s) hfits hsplit hp]
  rfl

theorem step_chunk_readFrame_ok {f : Frame} (hpend : s.pend = .readFrame) (hf : decodeFrame p = .ok f) :
    step s = .next { s with
      inputs := rest, phase := .idle, pend := .none, rxbuf := tail, fed := s.fed ++ c, taken := s.taken ++ [p],
      trace := s.trace ++ [.readAnswered (.chunk c), .completion ⟨.ok, f.type.zeroExtend 32, f.data⟩] } := by
  rw [step_chunk_readFrame hphase hinputs hlen hcap hsplit hp hpend, finishReadFrame_ok _ hf]
  simp [chunkAnswered, complete, observe, typeRval]

theorem step_chunk_readFrame_error {k : ErrorKind} (hpend : s.pend = .readFrame) (hk : decodeFrame p = .error k) :
    step s = .next { s with
      inputs := rest, phase := .idle, pend := .none, rxbuf := tail, fed := s.fed ++ c, taken := s.taken ++ [p],
      trace := s.trace ++ [.readAnswered (.chunk c), .completion ⟨.absent, 0, []⟩] } := by
  rw [step_chunk_readFrame hphase hinputs hlen hcap hsplit hp hpend, finishReadFrame_error _ hk]
  simp [chunkAnswered, raise, complete, observe]

end

/-! ## READ_FRAME from its issue to its completion (R180) -/

/-- The packet a wire frame leaves in `RXBUF` decodes to the frame. -/
theorem decodeFrame_stuffed {f : Frame} (hf : f.wellFormed = true) : decodeFrame (cobsEncode (raw f)) = .ok f :=
  (decodeFrame_cobsEncode (raw f)).trans (checkRaw_raw hf)

theorem decode_readCommand (p : Params) : decode p (encode .readFrame) = .command .readFrame := by
  have hdin : p.dinFits (encode .readFrame).din = true := by
    cases h : p.dinMax <;> simp [Params.dinFits, encode, h]
  rw [decode_of_admits (admits_encode .readFrame) hdin]
  rfl

theorem step_readCommand {s : State} {rest : List Event} (hphase : s.phase = .idle)
    (hinputs : s.inputs = readCommand :: rest) : step s = exec .readFrame { s with inputs := rest } :=
  step_command_decoded hphase hinputs (decode_readCommand s.params)

/-- A buffered frame is returned without a read. -/
theorem step_readCommand_frame {s : State} {p tail : Bytes} {f : Frame} {rest : List Event} (hphase : s.phase = .idle)
    (hinputs : s.inputs = readCommand :: rest) (hsplit : s.rxbuf = p ++ delimiter :: tail) (hp : delimiter ∉ p)
    (hf : decodeFrame p = .ok f) :
    step s = .next { s with
      inputs := rest, phase := .idle, pend := .none, rxbuf := tail, taken := s.taken ++ [p],
      trace := s.trace ++ [.completion ⟨.ok, f.type.zeroExtend 32, f.data⟩] } := by
  rw [step_readCommand hphase hinputs, exec_readFrame_packet (s := { s with inputs := rest }) hphase hp hsplit,
    finishReadFrame_ok _ hf]
  rfl

section

variable {s : State} {c : Bytes} {rest : List Event} (hphase : s.phase = .idle)
  (hinputs : s.inputs = readCommand :: .answer (.chunk c) :: rest) (hbuffer : delimiter ∉ s.rxbuf)

include hphase hinputs hbuffer

/-- With no packet buffered, the answer is taken in the state the issue leaves. -/
theorem steps_fetch : steps 2 s = step (beginFetch .readFrame { s with inputs := .answer (.chunk c) :: rest }) :=
  steps_two ((step_readCommand hphase hinputs).trans
    (exec_readFrame_noPacket (s := { s with inputs := .answer (.chunk c) :: rest }) hphase hbuffer))

variable (hlen : c.length ≤ s.params.readMax) (hcap : WithinCap s.params (s.rxbuf ++ c))

include hlen hcap

theorem steps_fetch_noPacket (hnone : delimiter ∉ s.rxbuf ++ c) :
    steps 2 s = .next { s with
      inputs := rest, phase := .idle, pend := .none, rxbuf := s.rxbuf ++ c, fed := s.fed ++ c,
      trace := s.trace ++
        [.readIssued s.params.readMax, .readAnswered (.chunk c), .completion ⟨.absent, 0, []⟩] } := by
  rw [steps_fetch hphase hinputs hbuffer,
    step_chunk_noPacket (s := beginFetch .readFrame { s with inputs := _ }) rfl rfl hlen hcap hnone]
  simp [beginFetch, observe]

theorem steps_fetch_frame {p tail : Bytes} {f : Frame} (hsplit : s.rxbuf ++ c = p ++ delimiter :: tail)
    (hp : delimiter ∉ p) (hf : decodeFrame p = .ok f) :
    steps 2 s = .next { s with
      inputs := rest, phase := .idle, pend := .none, rxbuf := tail, fed := s.fed ++ c, taken := s.taken ++ [p],
      trace := s.trace ++
        [.readIssued s.params.readMax, .readAnswered (.chunk c),
          .completion ⟨.ok, f.type.zeroExtend 32, f.data⟩] } := by
  rw [steps_fetch hphase hinputs hbuffer,
    step_chunk_readFrame_ok (s := beginFetch .readFrame { s with inputs := _ }) rfl rfl hlen hcap hsplit hp rfl hf]
  simp [beginFetch, observe]

end

/-- A part of what fits, fits. -/
theorem WithinCap.of_append {p : Params} {b c : Bytes} (h : WithinCap p (b ++ c)) : WithinCap p b := by
  intro cap hcap
  have hlen := h cap hcap
  rw [List.length_append] at hlen
  omega

end Sys2Proof.Safety

/-! ## The obligations, in a namespace of their own since one is named as the model's `answerStep` -/

namespace Sys2Proof.Reassembler

open Sys2Proof.Machine Sys2Proof.Safety

/-- Settles O52: every step keeps the equality, since what it appends and takes it records, and a reset restarts both sides. -/
theorem noByteIsLost : Obligations.NoByteIsLost :=
  ⟨fun _ _ _ hs hrun => steps_keeps (P := Conserved) (fun _ _ => step_conserved) hs hrun,
    fun _ _ _ => conserved_of_reset⟩

/-- Settles O35: EXTRACT's search finds the first delimiter, or none. -/
theorem extractCommand : Obligations.ExtractCommand :=
  ⟨fun fetch _ _ _ hphase hp hs => exec_extract_packet fetch hphase hp hs,
    fun _ hphase hs => exec_extract_noPacket hphase hs⟩

/-- Settles O40: the cases of the answer step. -/
theorem answerStep : Obligations.AnswerStep := by
  intro s a rest hphase _ hinputs
  refine ⟨?_, ?_⟩
  · rintro rfl
    exact step_ioerr hphase hinputs
  · rintro c rfl hlen
    refine ⟨fun cap hcap hover => step_chunk_overflow hphase hinputs hlen hcap hover, fun hcap =>
      ⟨step_chunk_noPacket hphase hinputs hlen hcap, fun p tail hsplit hp => ⟨?_, fun hpend => ⟨?_, ?_⟩⟩⟩⟩
    · exact step_chunk_extract hphase hinputs hlen hcap hsplit hp
    · exact fun f => step_chunk_readFrame_ok hphase hinputs hlen hcap hsplit hp hpend
    · exact fun k => step_chunk_readFrame_error hphase hinputs hlen hcap hsplit hp hpend

/-- Settles O41: with the invariant the buffer fits and holds no delimiter, and appending nothing leaves it so. -/
theorem zeroLengthChunkIsAbsent : Obligations.ZeroLengthChunkIsAbsent := by
  intro s rest hinv hphase hinputs
  have hstep := step_chunk_noPacket hphase hinputs (Nat.zero_le _) (by simpa using hinv.cap)
    (by simpa using hinv.waiting hphase)
  simpa using hstep

/-- Settles O42: the overflow case of the answer step, and the three things a step can do to OVF. -/
theorem receiveOverflow : Obligations.ReceiveOverflow := by
  refine ⟨fun s c cap rest hphase hcap hlen hover hinputs => step_chunk_overflow hphase hinputs hlen hcap hover,
    fun s t hstep hset => ?_, fun s t hstep hinf hclear => ?_⟩
  · obtain ⟨rest, hreset, -⟩ | hsame | ⟨ht, -⟩ := step_ovf hstep
    · exact .inr ⟨rest, hreset⟩
    · exact .inl (hsame.trans hset)
    · exact .inl ht
  · obtain ⟨-, -, ht⟩ | hsame | ⟨-, hfinite⟩ := step_ovf hstep
    · exact ht
    · exact hsame.trans hclear
    · exact absurd hinf hfinite

/-- Settles O54: the first READ_FRAME fetches both frames and takes the first, the second finds its frame buffered. -/
theorem streamSplitting : Obligations.StreamSplitting := by
  intro f g s rest hf hg hphase hrxbuf hlen hcap hinputs
  have hfirst := steps_fetch_frame hphase hinputs (by simp [hrxbuf]) hlen (by simpa [hrxbuf] using hcap)
    (by rw [hrxbuf, List.nil_append, wire_append]) (cobsEncode_noDelimiter _) (decodeFrame_stuffed hf)
  calc steps (2 + 1) s
    _ = step _ := (steps_add_of_steps 1 hfirst).trans (steps_one _)
    _ = .next _ := step_readCommand_frame rfl rfl (wire_eq g) (cobsEncode_noDelimiter _) (decodeFrame_stuffed hg)
    _ = _ := by simp

/-- Settles O55: the first part holds no delimiter, so it stays buffered; the second completes the frame. -/
theorem partialDelivery : Obligations.PartialDelivery := by
  intro f c d s rest hf hwire hd hphase hrxbuf hc hdlen hcap hinputs
  have hnone : delimiter ∉ c := noDelimiter_of_append_eq_wire hwire hd
  have hwhole : WithinCap s.params (c ++ d) := hwire ▸ hcap
  have hfirst := steps_fetch_noPacket hphase hinputs (by simp [hrxbuf]) hc (by simpa [hrxbuf] using hwhole.of_append)
    (by simpa [hrxbuf] using hnone)
  rw [hrxbuf, List.nil_append] at hfirst
  obtain ⟨t, ht, hrun⟩ : ∃ t, t = _ ∧ steps 2 s = .next t := ⟨_, rfl, hfirst⟩
  have hsecond := steps_fetch_frame (s := t) (c := d) (by rw [ht]) (by rw [ht]) (by rwa [ht]) (by rwa [ht])
    (by rwa [ht]) (by rw [ht, hwire, wire_eq]) (cobsEncode_noDelimiter _) (decodeFrame_stuffed hf)
  refine ⟨⟨t, hrun, by rw [ht]⟩, ?_⟩
  rw [steps_add_of_steps 2 hrun, hsecond]
  simp [ht, hwire]

/-- Settles O38: the packet before a delimiter at the front is empty, and the empty packet does not decode. -/
theorem emptyPacket : Obligations.EmptyPacket := by
  intro s rest hphase hs
  have hempty : delimiter ∉ ([] : Bytes) := List.not_mem_nil
  refine ⟨fun fetch => exec_extract_packet fetch hphase hempty hs, decodeFrame_nil, ?_⟩
  rw [exec_readFrame_packet hphase hempty hs, finishReadFrame_error _ decodeFrame_nil]
  rfl

end Sys2Proof.Reassembler

namespace Sys2Proof.Safety

open Sys2Proof.Machine

/-! ## What an error leaves behind (R202) -/

/-- The rows of R202: the status of an error, and the state elements after it. `chunk` is what the step takes as the answer of a
read, and `runs` says that READ_FRAME has run. -/
inductive ErrorEffect (runs : Prop) (chunk : Bytes) (before : Elements) : Status → Elements → Prop
  /-- Nothing is written but `PHASE` and `PEND`. -/
  | unchanged {st : Status} (habsent : st ≠ .absent) (hoverflow : st ≠ .rxOverflow) :
      ErrorEffect runs chunk before st ⟨before.rxbuf, .idle, .none, before.ovf⟩
  /-- `OVF <- 1` (R177). -/
  | overflow : ErrorEffect runs chunk before .rxOverflow ⟨before.rxbuf, .idle, .none, true⟩
  /-- The chunk is appended (R174). -/
  | appended {rxbuf : Bytes} (hrxbuf : rxbuf = before.rxbuf ++ chunk) :
      ErrorEffect runs chunk before .absent ⟨rxbuf, .idle, .none, before.ovf⟩
  /-- READ_FRAME has dropped the packet at the front (R181). -/
  | dropped {p rxbuf : Bytes} {k : ErrorKind} (hruns : runs) (hp : delimiter ∉ p) (hk : decodeFrame p = .error k)
      (hsplit : before.rxbuf ++ chunk = p ++ delimiter :: rxbuf) :
      ErrorEffect runs chunk before .absent ⟨rxbuf, .idle, .none, before.ovf⟩

/-- Of the elements before it, an error's effect rests on `RXBUF` and `OVF` alone. -/
theorem ErrorEffect.of_same {runs : Prop} {chunk : Bytes} {before before' after : Elements} {st : Status}
    (hrxbuf : before.rxbuf = before'.rxbuf) (hovf : before.ovf = before'.ovf)
    (h : ErrorEffect runs chunk before st after) : ErrorEffect runs chunk before' st after := by
  cases h with
  | unchanged habsent hoverflow =>
    rw [hrxbuf, hovf]
    exact .unchanged habsent hoverflow
  | overflow =>
    rw [hrxbuf]
    exact .overflow
  | appended happend =>
    rw [hovf]
    exact .appended (by rw [happend, hrxbuf])
  | dropped hruns hp hk hsplit =>
    rw [hovf]
    exact .dropped hruns hp hk (by rw [← hrxbuf, hsplit])

/-- R202, element by element. -/
theorem ErrorEffect.leaves {runs : Prop} {chunk : Bytes} {before after : Elements} {st : Status}
    (h : ErrorEffect runs chunk before st after) :
    after.phase = .idle ∧ after.pend = .none ∧
    (st = .rxOverflow → after.ovf = true) ∧ (st ≠ .rxOverflow → after.ovf = before.ovf) ∧
    (st ≠ .absent → after.rxbuf = before.rxbuf) ∧
    (st = .absent → after.rxbuf = before.rxbuf ++ chunk ∨
      runs ∧ ∃ p k, delimiter ∉ p ∧ decodeFrame p = .error k ∧ before.rxbuf ++ chunk = p ++ delimiter :: after.rxbuf) := by
  cases h with
  | unchanged habsent hoverflow =>
    exact ⟨rfl, rfl, fun hst => absurd hst hoverflow, fun _ => rfl, fun _ => rfl, fun hst => absurd hst habsent⟩
  | overflow => exact ⟨rfl, rfl, fun _ => rfl, fun hne => absurd rfl hne, fun _ => rfl, nofun⟩
  | appended hrxbuf => exact ⟨rfl, rfl, nofun, fun _ => rfl, fun hne => absurd rfl hne, fun _ => .inl hrxbuf⟩
  | dropped hruns hp hk hsplit =>
    exact ⟨rfl, rfl, nofun, fun _ => rfl, fun hne => absurd rfl hne, fun _ => .inr ⟨hruns, _, _, hp, hk, hsplit⟩⟩

/-- The elements an error ends its command with (R24). -/
@[simp] theorem elements_raise (st : Status) (s : State) : elements (raise st s) = ⟨s.rxbuf, .idle, .none, s.ovf⟩ := rfl

/-! ## The completions between two states -/

/-- Between `s` and `t` the run shows no completion. -/
def Quiet (s t : State) : Prop := ∃ new, t.trace = s.trace ++ new ∧ completions new = []

theorem Quiet.of_silent {s t : State} (h : t.trace = s.trace) : Quiet s t := ⟨[], by simpa using h, rfl⟩

theorem transportWrite_quiet (w : Bytes) (s : State) : Quiet s (transportWrite w s) := ⟨[.write _ _], rfl, rfl⟩

theorem beginFetch_quiet (k : Pend) (s : State) : Quiet s (beginFetch k s) := ⟨[.readIssued _], rfl, rfl⟩

theorem readAnswered_quiet (a : ReadAnswer) (s : State) : Quiet s (observe (.readAnswered a) s) :=
  ⟨[.readAnswered a], rfl, rfl⟩

/-- What R201 and R202 ask of a completion: its status is in `row`, and it is OK or an error without a result (R83) that leaves
what R202 says. -/
structure CompletionRule (row : List Status) (runs : Prop) (chunk : Bytes) (before after : Elements) (c : Completion) : Prop where
  status : c.status ∈ row
  effect : c.status = .ok ∨ ∃ st, c = ⟨st, 0, []⟩ ∧ ErrorEffect runs chunk before st after

/-- Every completion the run shows between `s` and `t` obeys R201 and R202. -/
def Completes (row : List Status) (runs : Prop) (chunk : Bytes) (s t : State) : Prop :=
  ∃ new, t.trace = s.trace ++ new ∧ ∀ c ∈ completions new, CompletionRule row runs chunk (elements s) (elements t) c

section

variable {row : List Status} {runs : Prop} {chunk : Bytes} {s t u : State}

/-- What is observed between two states is fixed by their traces. -/
theorem Completes.rule (h : Completes row runs chunk s t) {os : List Obs} (hos : t.trace = s.trace ++ os) {c : Completion}
    (hc : c ∈ completions os) : CompletionRule row runs chunk (elements s) (elements t) c := by
  obtain ⟨new, hnew, hrule⟩ := h
  obtain rfl : new = os := List.append_cancel_left (hnew.symm.trans hos)
  exact hrule c hc

theorem Completes.of_quiet (h : Quiet s t) : Completes row runs chunk s t := by
  obtain ⟨new, hnew, hnone⟩ := h
  exact ⟨new, hnew, by simp [hnone]⟩

/-- A step may first observe what is no completion, as long as `RXBUF` and `OVF` stay. -/
theorem Completes.after_quiet (hquiet : Quiet s u) (hrxbuf : u.rxbuf = s.rxbuf) (hovf : u.ovf = s.ovf)
    (h : Completes row runs chunk u t) : Completes row runs chunk s t := by
  obtain ⟨before, hbefore, hnone⟩ := hquiet
  obtain ⟨new, hnew, hrule⟩ := h
  refine ⟨before ++ new, by rw [hnew, hbefore, List.append_assoc], fun c hc => ?_⟩
  obtain ⟨hstatus, heffect⟩ := hrule c (by simpa [hnone] using hc)
  exact ⟨hstatus, heffect.imp_right fun ⟨st, hst, herror⟩ => ⟨st, hst, herror.of_same hrxbuf hovf⟩⟩

/-- One completion, after observations that are none. -/
theorem complete_completes {st : Status} {v : Word} {d : Bytes} (hquiet : Quiet s u)
    (h : CompletionRule row runs chunk (elements s) (elements (complete st v d u)) ⟨st, v, d⟩) :
    Completes row runs chunk s (complete st v d u) := by
  obtain ⟨before, hbefore, hnone⟩ := hquiet
  exact ⟨before ++ [.completion ⟨st, v, d⟩], by simp [hbefore], by simpa [hnone, completions] using h⟩

theorem complete_ok_completes {v : Word} {d : Bytes} (hrow : .ok ∈ row) (hquiet : Quiet s u) :
    Completes row runs chunk s (complete .ok v d u) :=
  complete_completes hquiet ⟨hrow, .inl rfl⟩

theorem raise_completes {st : Status} (hrow : st ∈ row) (hquiet : Quiet s u)
    (h : ErrorEffect runs chunk (elements s) st (elements (raise st u))) : Completes row runs chunk s (raise st u) :=
  complete_completes hquiet ⟨hrow, .inr ⟨st, rfl, h⟩⟩

/-- An error that writes no more than `PHASE` and `PEND`. -/
theorem raise_completes_unchanged {st : Status} (hrow : st ∈ row) (hquiet : Quiet s u)
    (hst : st ≠ .absent ∧ st ≠ .rxOverflow) (hsame : elements u = elements s) :
    Completes row runs chunk s (raise st u) := by
  obtain ⟨hrxbuf, -, -, hovf⟩ := Elements.mk.inj hsame
  refine raise_completes hrow hquiet ?_
  rw [elements_raise, hrxbuf, hovf]
  exact .unchanged hst.1 hst.2

/-- READ_FRAME completes with the packet it has taken from the buffer of `s` with the chunk appended. -/
theorem finishReadFrame_completes {i : Nat} (hruns : runs) (hquiet : Quiet s u) (hrxbuf : u.rxbuf = s.rxbuf ++ chunk)
    (hovf : u.ovf = s.ovf) (hfind : rxFind u = some i) :
    Completes (allowedStatuses .readFrame) runs chunk s (finishReadFrame (rxPacket i u) (rxTake i u)) := by
  have htake : Quiet s (rxTake i u) := hquiet
  obtain ⟨hsplit, hpacket⟩ := rxFind_some hfind
  obtain ⟨f, -, hfinish⟩ | ⟨k, hk, hfinish⟩ := finishReadFrame_cases (rxPacket i u) (rxTake i u)
  · rw [hfinish]
    exact complete_ok_completes (by decide) htake
  · rw [hfinish]
    refine raise_completes (by decide) htake ?_
    rw [elements_raise, rxTake_ovf, hovf]
    exact .dropped hruns hpacket hk (hrxbuf.symm.trans hsplit)

end

/-! ## The issue step (R201) -/

theorem ok_mem_allowedStatuses (i : Instr) : .ok ∈ allowedStatuses i := by
  cases i with
  | extract fetch => cases fetch <;> decide
  | _ => simp [allowedStatuses]

theorem kindStatus_mem_allowedStatuses (k : ErrorKind) (din : Bytes) : kindStatus k ∈ allowedStatuses (.decode din) := by
  cases k <;> simp [kindStatus, allowedStatuses]

/-- No decoding error is reported as RX_OVERFLOW (R151, R200). -/
theorem kindStatus_ne_rxOverflow (k : ErrorKind) : kindStatus k ≠ .rxOverflow := by
  cases k <;> simp [kindStatus]

/-- The issue step of a command takes no chunk. -/
theorem exec_completes {runs : Prop} {i : Instr} {s t : State} (hruns : i = .readFrame → runs) (h : exec i s = .next t) :
    Completes (allowedStatuses i) runs [] s t := by
  have hok := ok_mem_allowedStatuses i
  have hself : Quiet s s := .of_silent rfl
  cases i with
  | crc32 din =>
    obtain ⟨-, rfl⟩ := execCrc32_next h
    exact complete_ok_completes hok hself
  | encode type din =>
    obtain ⟨-, ⟨-, rfl⟩ | ⟨-, rfl⟩⟩ := execEncode_next h
    · exact raise_completes_unchanged (by simp [allowedStatuses]) hself (by decide) rfl
    · exact complete_ok_completes hok hself
  | decode din =>
    obtain ⟨-, ⟨k, -, rfl⟩ | ⟨f, -, rfl⟩⟩ := execDecode_next h
    · exact raise_completes_unchanged (kindStatus_mem_allowedStatuses k din) hself
        ⟨kindStatus_ne_absent k, kindStatus_ne_rxOverflow k⟩ rfl
    · exact complete_ok_completes hok hself
  | send type din =>
    obtain ⟨-, ⟨-, rfl⟩ | ⟨-, -, rfl⟩ | ⟨-, -, rfl⟩⟩ := execSend_next h
    · exact raise_completes_unchanged (by simp [allowedStatuses]) hself (by decide) rfl
    · exact complete_ok_completes hok (transportWrite_quiet _ s)
    · exact raise_completes_unchanged (by simp [allowedStatuses]) (transportWrite_quiet _ s) (by decide) rfl
  | extract fetch =>
    obtain ⟨-, ⟨i, -, rfl⟩ | ⟨-, -, rfl⟩ | ⟨-, rfl, rfl⟩⟩ := execExtract_next h
    · exact complete_ok_completes hok (.of_silent rfl)
    · exact .of_quiet (beginFetch_quiet _ s)
    · exact raise_completes (by decide) hself (.appended (List.append_nil _).symm)
  | readFrame =>
    obtain ⟨-, ⟨i, hfind, rfl⟩ | ⟨-, rfl⟩⟩ := execReadFrame_next h
    · exact finishReadFrame_completes (hruns rfl) hself (List.append_nil _).symm rfl hfind
    · exact .of_quiet (beginFetch_quiet _ s)

/-! ## The answer step (R201) -/

/-- The commands that can wait have one row. -/
theorem allowedStatuses_of_pendCommand {k : Pend} {i : Instr} (h : pendCommand k = some i) :
    allowedStatuses i = allowedStatuses .readFrame := by
  cases k with
  | none => cases h
  | extract => obtain rfl := Option.some.inj h; rfl
  | readFrame => obtain rfl := Option.some.inj h; rfl

/-- A fetch ends with the packet found in the longer buffer. -/
theorem finishFetch_completes {runs : Prop} {k : Pend} {c : Bytes} {i : Nat} {s t : State} (hruns : k = .readFrame → runs)
    (hfind : rxFind (rxAppend c s) = some i) (h : finishFetch k i (rxAppend c s) = .next t) :
    Completes (allowedStatuses .readFrame) runs c s t := by
  obtain ⟨-, rfl⟩ | ⟨rfl, rfl⟩ := finishFetch_next h
  · exact complete_ok_completes (by decide) (.of_silent rfl)
  · exact finishReadFrame_completes (hruns rfl) (.of_silent rfl) rfl rfl hfind

theorem takeChunk_completes {runs : Prop} {k : Pend} {c : Bytes} {s t : State} (hruns : k = .readFrame → runs)
    (h : takeChunk k c s = .next t) : Completes (allowedStatuses .readFrame) runs c s t := by
  obtain ⟨-, rfl⟩ | ⟨-, -, rfl⟩ | ⟨-, i, hfind, hfetch⟩ := takeChunk_next h
  · exact raise_completes (by decide) (.of_silent rfl) .overflow
  · exact raise_completes (by decide) (.of_silent rfl) (.appended rfl)
  · exact finishFetch_completes hruns hfind hfetch

/-- The chunk an answer brings: none with IOERR. -/
def chunkOf (a : ReadAnswer) : Bytes :=
  match a with
  | .ioerr => []
  | .chunk c => c

theorem answeredChunk_answer {a : ReadAnswer} {s : State} {rest : List Event} (hphase : s.phase = .fetchWait)
    (hinputs : s.inputs = .answer a :: rest) : answeredChunk s = chunkOf a := by
  cases a with
  | ioerr => exact answeredChunk_ioerr hinputs
  | chunk c => exact answeredChunk_chunk hphase hinputs

theorem answerStep_completes {runs : Prop} {a : ReadAnswer} {s t : State} (hruns : s.pend = .readFrame → runs)
    (h : answerStep a s = .next t) : Completes (allowedStatuses .readFrame) runs (chunkOf a) s t := by
  obtain ⟨rfl, rfl⟩ | ⟨c, rfl, -, hchunk⟩ := answerStep_next h
  · exact raise_completes_unchanged (by decide) (readAnswered_quiet _ s) (by decide) rfl
  · exact (takeChunk_completes hruns hchunk).after_quiet (readAnswered_quiet _ { s with pend := .none }) rfl rfl

/-! ## The step (R189) -/

/-- A transaction that does not decode (R80). -/
theorem raise_illegalCommand_completes {runs : Prop} (s : State) :
    Completes [.illegalCommand] runs [] s (raise .illegalCommand s) :=
  raise_completes_unchanged (by decide) (.of_silent rfl) (by decide) rfl

theorem step_illegal_completes {s t : State} {tx : Transaction} {rest : List Event} {why : Illegal}
    (hinputs : s.inputs = .command tx :: rest) (hdecode : decode s.params tx = .illegal why) (h : step s = .next t) :
    Completes [.illegalCommand] False [] s t := by
  rw [step_event hinputs] at h
  obtain ⟨-, ⟨-, -, rfl⟩ | ⟨i, hcommand, -⟩⟩ := issueCommand_next h
  · exact raise_illegalCommand_completes { s with inputs := rest }
  · exact absurd (hdecode.symm.trans hcommand) nofun

theorem issueCommand_completes {tx : Transaction} {s t : State} {rest : List Event}
    (hinputs : s.inputs = .command tx :: rest) (h : issueCommand tx { s with inputs := rest } = .next t) :
    ∃ row, Completes row (runsReadFrame s) (answeredChunk s) s t := by
  obtain ⟨hphase, houtcome⟩ := issueCommand_next h
  rw [answeredChunk_idle (s := s) hphase]
  obtain ⟨-, -, rfl⟩ | ⟨i, hdecode, hexec⟩ := houtcome
  · exact ⟨_, raise_illegalCommand_completes { s with inputs := rest }⟩
  · have hruns : i = .readFrame → runsReadFrame s := by
      rintro rfl
      exact .inl ⟨hphase, tx, rest, hinputs, hdecode⟩
    exact ⟨_, exec_completes (s := { s with inputs := rest }) hruns hexec⟩

/-- Whatever a step completes has some row, and leaves what R202 says. -/
theorem step_completes {s t : State} (h : step s = .next t) :
    ∃ row, Completes row (runsReadFrame s) (answeredChunk s) s t := by
  obtain ⟨-, rfl⟩ | ⟨e, rest, hinputs, hevent⟩ := step_next h
  · exact ⟨[], .of_quiet (.of_silent rfl)⟩
  · obtain ⟨tx, rfl, hcommand⟩ | ⟨a, rfl, hphase, hanswer⟩ | ⟨a, -, -, rfl⟩ | ⟨a, -, rfl⟩ | ⟨-, rfl⟩ := hevent
    · exact issueCommand_completes hinputs hcommand
    · rw [answeredChunk_answer hphase hinputs]
      exact ⟨_, answerStep_completes (s := { s with inputs := rest }) (fun hpend => .inr ⟨hphase, hpend⟩) hanswer⟩
    · exact ⟨[], .of_quiet (.of_silent rfl)⟩
    · exact ⟨[], .of_quiet (.of_silent rfl)⟩
    · exact ⟨[], .of_quiet (.of_silent rfl)⟩

/-! ## The obligations -/

/-- Settles O47: a case split on what the issue step, the answer step and an illegal transaction lead to; the two commands that can
wait have the same row. -/
theorem statusesStayInTheirRow : Obligations.StatusesStayInTheirRow := by
  refine ⟨fun i s t os h hos c hc => ?_, fun a s t os i hi h hos c hc => ?_,
    fun s t tx rest why os hinputs hdecode h hos c hc => ?_⟩
  · exact ((exec_completes id h).rule hos hc).status
  · rw [allowedStatuses_of_pendCommand hi]
    exact ((answerStep_completes id h).rule hos hc).status
  · exact List.mem_singleton.mp ((step_illegal_completes hinputs hdecode h).rule hos hc).status

/-- Settles O48: an error is in one of the rows of `ErrorEffect`, and each row fixes the elements it leaves. -/
theorem errorLeavesBehind : Obligations.ErrorLeavesBehind := by
  intro s t os c h hos hc hne
  obtain ⟨row, hcompletes⟩ := step_completes h
  obtain hok | ⟨st, rfl, herror⟩ := (hcompletes.rule hos hc).effect
  · exact absurd hok hne
  · obtain ⟨hphase, hpend, hset, hkept, hrxbuf, habsent⟩ := herror.leaves
    exact ⟨hphase, hpend, rfl, rfl, hset, hkept, hrxbuf, habsent⟩

end Sys2Proof.Safety

namespace Sys2Proof.Safety

open Sys2Proof.Machine

/-- Settles O9: a reset event is taken without a look at the phase, so the step is `resetEngine` in `IDLE` and `FETCH_WAIT` alike,
and it writes the elements that power-on has (R230, R233). -/
theorem resetStep : Obligations.ResetStep := by
  refine ⟨fun s rest hinputs => ?everyPhase, ?powerOn⟩
  case everyPhase => exact step_reset hinputs
  case powerOn => rfl

end Sys2Proof.Safety

namespace Sys2Proof

/-! ## What a command's transaction carries (R71, R76, R77) -/

/-- The operation of a command reads the command back from its transaction. -/
theorem instr_encode (i : Instr) : (Laws.opcodeOf i).instr (encode i) = i := by
  have hfields := Laws.fields_cmdWord
  cases i with
  | crc32 din => rfl
  | encode type din => exact congrArg (Instr.encode · din) (hfields type false 2).2.2.2
  | decode din => rfl
  | send type din => exact congrArg (Instr.send · din) (hfields type false 4).2.2.2
  | extract fetch => exact congrArg Instr.extract (hfields 0 fetch 5).2.2.1
  | readFrame => rfl

@[simp] theorem dinFits_nil (p : Params) : p.dinFits [] = true := by
  cases h : p.dinMax <;> simp [Params.dinFits, h]

theorem dinFits_encode (p : Params) (i : Instr) : p.dinFits (encode i).din = i.wellFormed p := by
  cases i with
  | extract fetch => exact dinFits_nil p
  | readFrame => exact dinFits_nil p
  | crc32 din => rfl
  | encode type din => rfl
  | decode din => rfl
  | send type din => rfl

theorem decode_encode {p : Params} {i : Instr} (h : i.wellFormed p = true) : decode p (encode i) = .command i := by
  rw [decode_of_admits (admits_encode i) (by rw [dinFits_encode, h]), instr_encode]

/-- An operation that admits a transaction loses nothing of it: what it does not take is zero or empty. -/
theorem encode_instr_of_admits {o : Opcode} {tx : Transaction} (h : o.Admits tx) : encode (o.instr tx) = tx := by
  obtain ⟨cmd, din⟩ := tx
  obtain ⟨⟨hcode, hrsv, hfetch, htype⟩, hdin⟩ := h
  have hword (type : Half) (fetch : Bool) (hf : fetch = fetchField cmd) (ht : type = typeField cmd) :
      cmdWord type fetch o.code = cmd := by
    obtain ⟨hopc', hrsv', hfetch', htype'⟩ := Laws.fields_cmdWord type fetch o.code
    exact (word_eq_iff_fields _ _).mpr
      ⟨hopc'.trans hcode.symm, hrsv'.trans hrsv.symm, hfetch'.trans hf, htype'.trans ht⟩
  cases o with
  | crc32 =>
    exact congrArg (Transaction.mk · din) (hword _ _ (hfetch.resolve_right nofun).symm (htype.resolve_right nofun).symm)
  | encode => exact congrArg (Transaction.mk · din) (hword _ _ (hfetch.resolve_right nofun).symm rfl)
  | decode =>
    exact congrArg (Transaction.mk · din) (hword _ _ (hfetch.resolve_right nofun).symm (htype.resolve_right nofun).symm)
  | send => exact congrArg (Transaction.mk · din) (hword _ _ (hfetch.resolve_right nofun).symm rfl)
  | extract =>
    obtain rfl : din = [] := hdin.resolve_right nofun
    exact congrArg (Transaction.mk · []) (hword _ _ rfl (htype.resolve_right nofun).symm)
  | readFrame =>
    obtain rfl : din = [] := hdin.resolve_right nofun
    exact congrArg (Transaction.mk · []) (hword _ _ (hfetch.resolve_right nofun).symm (htype.resolve_right nofun).symm)

end Sys2Proof

namespace Sys2Proof.Machine

/-! ## Every command waits for `IDLE` (R31, R235) -/

theorem exec_fetchWait (i : Instr) {s : State} (h : s.phase = .fetchWait) :
    exec i s = .refused .commandDuringFetch := by
  cases i with
  | crc32 din => exact whenIdle_fetchWait h _
  | encode type din => exact whenIdle_fetchWait h _
  | decode din => exact whenIdle_fetchWait h _
  | send type din => exact whenIdle_fetchWait h _
  | extract fetch => exact whenIdle_fetchWait h _
  | readFrame => exact whenIdle_fetchWait h _

theorem step_command_fetchWait {s : State} {tx : Transaction} {rest : List Event} (hphase : s.phase = .fetchWait)
    (hinputs : s.inputs = .command tx :: rest) : step s = .refused .commandDuringFetch :=
  (step_event hinputs).trans (whenIdle_fetchWait hphase _)

/-! ## SEND and the fetching EXTRACT in `IDLE` (R174, R183) -/

section

variable (type : Half) {din : Bytes} {s : State} (hphase : s.phase = .idle) (hp : payloadTooLong din = false)

include hphase hp

theorem exec_send_idle_wok (hdraw : nextWriteDraw s = .wok) :
    exec (.send type din) s = .next (complete .ok 0 [] (transportWrite (wire ⟨type, din⟩) s)) := by
  simp [exec, execSend, whenIdle_idle hphase, hp, writeAnswer_wok _ hdraw]

theorem exec_send_idle_werr {k : Nat} (hdraw : nextWriteDraw s = .werr k) :
    exec (.send type din) s = .next (raise .transportError (transportWrite (wire ⟨type, din⟩) s)) := by
  simp [exec, execSend, whenIdle_idle hphase, hp, writeAnswer_werr _ hdraw]

end

theorem payloadTooLong_eq_false {din : Bytes} (h : din.length ≤ 65535) : payloadTooLong din = false :=
  Bool.eq_false_iff.mpr fun hlong => Nat.not_lt.mpr h ((payloadTooLong_iff din).mp hlong)

theorem exec_extract_fetch {s : State} (h : s.phase = .idle) (hs : delimiter ∉ s.rxbuf) :
    exec (.extract true) s = .next (beginFetch .extract s) := by
  simp [exec, execExtract, whenIdle_idle h, rxFind_none.mpr hs]

/-! ## Status codes (R200) -/

/-- The status a code stands for. -/
def statusOfCode (c : BitVec 8) : Option Status :=
  match c.toNat with
  | 0 => some .ok
  | 1 => some .absent
  | 2 => some .invalidLength
  | 3 => some .decodeError
  | 4 => some .invalidCrc
  | 5 => some .transportError
  | 6 => some .illegalCommand
  | 7 => some .rxOverflow
  | _ => none

theorem statusOfCode_statusCode (st : Status) : statusOfCode (statusCode st) = some st := by
  cases st <;> rfl

theorem statusCode_injective {a b : Status} (h : statusCode a = statusCode b) : a = b :=
  Option.some.inj <| by rw [← statusOfCode_statusCode a, h, statusOfCode_statusCode]

theorem statusCode_lt (st : Status) : (statusCode st).toNat < 0x08 := by
  cases st <;> decide

end Sys2Proof.Machine

namespace Sys2Proof.Safety

open Sys2Proof.Machine

/-! ## The obligations -/

/-- Settles O1: the word of a command is one its operation admits, and the operation reads the operands back from its fields. -/
theorem decodeOfEncode : Obligations.DecodeOfEncode :=
  fun _ _ => decode_encode

/-- Settles O2: the checks of the decoder fix every field that the command does not carry. -/
theorem encodeOfDecode : Obligations.EncodeOfDecode := by
  intro p tx i h
  obtain ⟨hfits, o, hadmits, rfl⟩ := decode_command h
  have hencode := encode_instr_of_admits hadmits
  exact ⟨hencode, by rw [← dinFits_encode, hencode, hfits]⟩

/-- Settles O6: each word is the encoding of its command, and `F = 1` on READ_FRAME fails the check of R73. -/
theorem exampleWordsDecode : Obligations.ExampleWordsDecode :=
  ⟨decode_encode (i := .crc32 [0x31, 0x32, 0x33]) rfl, decode_encode (i := .encode 0x0001#16 [0x78]) rfl,
    decode_encode (i := .encode 0xFFFF#16 []) rfl, decode_encode (i := .decode [0x02, 0x01]) rfl,
    decode_encode (i := .send 0x0003#16 []) rfl, decode_encode (i := .extract false) rfl,
    decode_encode (i := .extract true) rfl, decode_encode (i := .readFrame) rfl, .fetchOutsideExtract, rfl⟩

/-- Settles O7: the lines are evaluated. -/
theorem exampleLinesAssemble : Obligations.ExampleLinesAssemble :=
  ⟨rfl, rfl, rfl, rfl, rfl, rfl, rfl, rfl⟩

/-- Settles O8: the accepted transaction is decoded and run. -/
theorem stepRunsTheDecodedCommand : Obligations.StepRunsTheDecodedCommand :=
  fun _ _ _ _ => step_command_decoded

/-- Settles O12: the step and every command look at the phase first. -/
theorem commandDuringFetchIsRefused : Obligations.CommandDuringFetchIsRefused :=
  ⟨fun _ _ _ => step_command_fetchWait, fun i _ => exec_fetchWait i⟩

/-- Settles O33: what the operand decodes to decides the completion, and each error kind has its own status. -/
theorem decodeCommand : Obligations.DecodeCommand :=
  ⟨fun _ _ _ => exec_decode_idle_ok,
    fun _ _ hphase => ⟨exec_decode_idle_error hphase, exec_decode_idle_error hphase, exec_decode_idle_error hphase⟩⟩

/-- Settles O36: the search finds no delimiter, so both commands begin a fetch. -/
theorem fetchIsIssuedOnce : Obligations.FetchIsIssuedOnce :=
  fun _ hphase hnone => ⟨exec_extract_fetch hphase hnone, exec_readFrame_noPacket hphase hnone⟩

/-- Settles O37: the search finds the first delimiter, and what the packet before it decodes to decides the completion. -/
theorem readFrameCommand : Obligations.ReadFrameCommand := by
  intro s p rest hphase hp hs
  have hexec := exec_readFrame_packet hphase hp hs
  refine ⟨fun f hf => ?_, fun k hk => ?_⟩
  · exact hexec.trans (congrArg _ (finishReadFrame_ok _ hf))
  · exact hexec.trans (congrArg _ (finishReadFrame_error _ hk))

/-- Settles O39: the payload's length decides whether there is a write, and its draw decides how it is answered. -/
theorem sendCommand : Obligations.SendCommand := by
  refine ⟨fun type din s hphase hfits => ⟨fun hdraw => ?_, fun k hdraw => ?_⟩, fun type din s hphase hlong =>
    exec_send_idle_tooLong type hphase ((payloadTooLong_iff din).mpr hlong)⟩
  · rw [exec_send_idle_wok type hphase (payloadTooLong_eq_false hfits) hdraw]
    simp [complete, observe, transportWrite, writeAnswer_wok _ hdraw]
  · rw [exec_send_idle_werr type hphase (payloadTooLong_eq_false hfits) hdraw]
    simp [raise, complete, observe, transportWrite, writeAnswer_werr _ hdraw]

/-- Settles O60: the code gives the status back, so no code stands for two. -/
theorem statusCodes : Obligations.StatusCodes :=
  ⟨rfl, rfl, rfl, rfl, rfl, rfl, rfl, rfl, fun _ _ => statusCode_injective, statusCode_lt⟩

end Sys2Proof.Safety

namespace Sys2Proof.Safety

open Sys2Proof.Machine

/-! ## How a command ends its step (R24, R174, R204) -/

/-- From `s` to `t` the command in progress completes, once and without a read. -/
structure CompletedOnce (s t : State) : Prop where
  params : t.params = s.params
  phase : t.phase = .idle
  pend : t.pend = .none
  shown : ∃ os, t.trace = s.trace ++ os ∧ (completions os).length = 1 ∧ readsIssued os = 0

/-- The completion, after observations that are neither completions nor reads. -/
theorem complete_completedOnce {st : Status} {v : Word} {d : Bytes} {s u : State} (before : List Obs)
    (hparams : u.params = s.params) (htrace : u.trace = s.trace ++ before) (hcompletions : completions before = [])
    (hreads : readsIssued before = 0) : CompletedOnce s (complete st v d u) where
  params := hparams
  phase := rfl
  pend := rfl
  shown := ⟨before ++ [.completion ⟨st, v, d⟩], by simp [htrace], by simp [hcompletions, completions],
    by simp [hreads, readsIssued]⟩

/-- The completion is all there is to see. -/
theorem complete_completedOnce_alone {st : Status} {v : Word} {d : Bytes} {s u : State} (hparams : u.params = s.params)
    (htrace : u.trace = s.trace) : CompletedOnce s (complete st v d u) :=
  complete_completedOnce [] hparams (by simpa using htrace) rfl rfl

/-- A step may first observe what is neither a completion nor a read. -/
theorem CompletedOnce.after_observe {o : Obs} {s t u : State} (h : CompletedOnce u t) (hparams : u.params = s.params)
    (htrace : u.trace = s.trace ++ [o]) (hcompletions : completions [o] = []) (hreads : readsIssued [o] = 0) :
    CompletedOnce s t := by
  obtain ⟨hp, hphase, hpend, os, hos, hone, hnone⟩ := h
  exact ⟨hp.trans hparams, hphase, hpend, [o] ++ os, by rw [hos, htrace, List.append_assoc],
    by rw [completions_append, hcompletions, List.nil_append, hone],
    by rw [readsIssued_append, hreads, Nat.zero_add, hnone]⟩

/-- Of the state before, only the build and the trace count. -/
theorem CompletedOnce.of_same {s s' t : State} (h : CompletedOnce s t) (hparams : s.params = s'.params)
    (htrace : s.trace = s'.trace) : CompletedOnce s' t := by
  obtain ⟨hp, hphase, hpend, hshown⟩ := h
  exact ⟨hp.trans hparams, hphase, hpend, htrace ▸ hshown⟩

theorem finishReadFrame_completedOnce {p : Bytes} {s u : State} (hparams : u.params = s.params)
    (htrace : u.trace = s.trace) : CompletedOnce s (finishReadFrame p u) := by
  obtain ⟨f, -, hfinish⟩ | ⟨k, -, hfinish⟩ := finishReadFrame_cases p u
  · rw [hfinish]
    exact complete_completedOnce_alone hparams htrace
  · rw [hfinish]
    exact complete_completedOnce_alone hparams htrace

/-- From `s` to `t` the command `i` issues its read, with no packet buffered, and waits (R174). -/
def Fetches (i : Instr) (s t : State) : Prop :=
  ∃ k, pendCommand k = some i ∧ NoDelimiter s.rxbuf ∧ t = beginFetch k s

/-- The issue step of a command completes it or begins its fetch. -/
theorem exec_completedOnce_or_fetches {i : Instr} {s t : State} (h : exec i s = .next t) :
    CompletedOnce s t ∨ Fetches i s t := by
  cases i with
  | crc32 din =>
    obtain ⟨-, rfl⟩ := execCrc32_next h
    exact .inl (complete_completedOnce_alone rfl rfl)
  | encode type din =>
    obtain ⟨-, ⟨-, rfl⟩ | ⟨-, rfl⟩⟩ := execEncode_next h
    · exact .inl (complete_completedOnce_alone rfl rfl)
    · exact .inl (complete_completedOnce_alone rfl rfl)
  | decode din =>
    obtain ⟨-, ⟨k, -, rfl⟩ | ⟨f, -, rfl⟩⟩ := execDecode_next h
    · exact .inl (complete_completedOnce_alone rfl rfl)
    · exact .inl (complete_completedOnce_alone rfl rfl)
  | send type din =>
    obtain ⟨-, ⟨-, rfl⟩ | ⟨-, -, rfl⟩ | ⟨-, -, rfl⟩⟩ := execSend_next h
    · exact .inl (complete_completedOnce_alone rfl rfl)
    · exact .inl (complete_completedOnce [.write _ _] rfl rfl rfl rfl)
    · exact .inl (complete_completedOnce [.write _ _] rfl rfl rfl rfl)
  | extract fetch =>
    obtain ⟨-, ⟨i, -, rfl⟩ | ⟨hnone, rfl, rfl⟩ | ⟨-, -, rfl⟩⟩ := execExtract_next h
    · exact .inl (complete_completedOnce_alone rfl rfl)
    · exact .inr ⟨.extract, rfl, rxFind_none.mp hnone, rfl⟩
    · exact .inl (complete_completedOnce_alone rfl rfl)
  | readFrame =>
    obtain ⟨-, ⟨i, -, rfl⟩ | ⟨hnone, rfl⟩⟩ := execReadFrame_next h
    · exact .inl (finishReadFrame_completedOnce rfl rfl)
    · exact .inr ⟨.readFrame, rfl, rxFind_none.mp hnone, rfl⟩

theorem issueCommand_completedOnce_or_fetches {tx : Transaction} {s t : State} (h : issueCommand tx s = .next t) :
    CompletedOnce s t ∨ ∃ i, decode s.params tx = .command i ∧ Fetches i s t := by
  obtain ⟨-, ⟨why, -, rfl⟩ | ⟨i, hdecode, hexec⟩⟩ := issueCommand_next h
  · exact .inl (complete_completedOnce_alone rfl rfl)
  · exact (exec_completedOnce_or_fetches hexec).imp_right fun hfetches => ⟨i, hdecode, hfetches⟩

theorem takeChunk_completedOnce {k : Pend} {c : Bytes} {s t : State} (h : takeChunk k c s = .next t) :
    CompletedOnce s t := by
  obtain ⟨-, rfl⟩ | ⟨-, -, rfl⟩ | ⟨-, i, -, hfetch⟩ := takeChunk_next h
  · exact complete_completedOnce_alone rfl rfl
  · exact complete_completedOnce_alone rfl rfl
  · obtain ⟨-, rfl⟩ | ⟨-, rfl⟩ := finishFetch_next hfetch
    · exact complete_completedOnce_alone rfl rfl
    · exact finishReadFrame_completedOnce rfl rfl

theorem answerStep_completedOnce {a : ReadAnswer} {s t : State} (h : answerStep a s = .next t) : CompletedOnce s t := by
  obtain ⟨-, rfl⟩ | ⟨c, -, -, hchunk⟩ := answerStep_next h
  · exact complete_completedOnce [.readAnswered .ioerr] rfl rfl rfl rfl
  · exact (takeChunk_completedOnce hchunk).after_observe rfl rfl rfl rfl

/-! ## What a step does to the control state (R31, R32) -/

/-- The rows of R189, by the events to come: what they leave of the control state, the build and the trace. -/
inductive StepEffect (s t : State) : List Event → Prop
  /-- With no event there is no step. -/
  | rests (h : t = s) : StepEffect s t []
  /-- A command completes in its step. -/
  | completed {tx : Transaction} {rest : List Event} (h : CompletedOnce s t) : StepEffect s t (.command tx :: rest)
  /-- A command fetches. -/
  | fetches {tx : Transaction} {rest : List Event} {i : Instr} (hdecode : decode s.params tx = .command i)
      (h : Fetches i { s with inputs := rest } t) : StepEffect s t (.command tx :: rest)
  /-- An answer completes the waiting command. -/
  | answered {a : ReadAnswer} {rest : List Event} (hphase : s.phase = .fetchWait) (h : CompletedOnce s t) :
      StepEffect s t (.answer a :: rest)
  /-- An answer that no read waits for is discarded. -/
  | unawaited {a : ReadAnswer} {rest : List Event} (hphase : s.phase = .idle) (h : t = { s with inputs := rest }) :
      StepEffect s t (.answer a :: rest)
  /-- So is an abandoned read's. -/
  | late {a : ReadAnswer} {rest : List Event} (h : t = { s with inputs := rest }) :
      StepEffect s t (.lateAnswer a :: rest)
  /-- Reset. -/
  | reset {rest : List Event} (h : t = resetEngine { s with inputs := rest }) : StepEffect s t (.reset :: rest)

theorem step_effect {s t : State} (h : step s = .next t) : StepEffect s t s.inputs := by
  obtain ⟨hinputs, ht⟩ | ⟨e, rest, hinputs, hevent⟩ := step_next h
  · exact hinputs ▸ .rests ht
  · rw [hinputs]
    obtain ⟨tx, rfl, hcommand⟩ | ⟨a, rfl, hphase, hanswer⟩ | ⟨a, rfl, hphase, ht⟩ | ⟨a, rfl, ht⟩ | ⟨rfl, ht⟩ := hevent
    · obtain hcompleted | ⟨i, hdecode, hfetches⟩ := issueCommand_completedOnce_or_fetches hcommand
      · exact .completed (hcompleted.of_same rfl rfl)
      · exact .fetches hdecode hfetches
    · exact .answered hphase ((answerStep_completedOnce hanswer).of_same rfl rfl)
    · exact .unawaited hphase ht
    · exact .late ht
    · exact .reset ht

/-- No step writes the build parameters (R41). -/
theorem step_params {s t : State} (h : step s = .next t) : t.params = s.params := by
  have heffect := step_effect h
  generalize s.inputs = events at heffect
  cases heffect with
  | rests h => rw [h]
  | completed h => exact h.params
  | fetches _ h =>
    obtain ⟨k, -, -, rfl⟩ := h
    rfl
  | answered _ h => exact h.params
  | unawaited _ h => rw [h]
  | late h => rw [h]
  | reset h => rw [h, resetEngine_params]

theorem pend_ne_none_of_pendCommand {k : Pend} {i : Instr} (h : pendCommand k = some i) : k ≠ .none := by
  rintro rfl
  cases h

/-- What the invariant says of the control state (R32, R174). -/
structure ControlInv (s : State) : Prop where
  pend : s.pend = .none ↔ s.phase = .idle
  waiting : s.phase = .fetchWait → NoDelimiter s.rxbuf

theorem ControlInv.of_idle {s : State} (hphase : s.phase = .idle) (hpend : s.pend = .none) : ControlInv s where
  pend := by simp [hphase, hpend]
  waiting := by simp [hphase]

theorem step_controlInv {s t : State} (hs : ControlInv s) (h : step s = .next t) : ControlInv t := by
  have heffect := step_effect h
  generalize s.inputs = events at heffect
  cases heffect with
  | rests h => exact h ▸ hs
  | completed h => exact .of_idle h.phase h.pend
  | fetches _ h =>
    obtain ⟨k, hk, hbuffer, rfl⟩ := h
    exact ⟨by simp [pend_ne_none_of_pendCommand hk], fun _ => hbuffer⟩
  | answered _ h => exact .of_idle h.phase h.pend
  | unawaited _ h => exact h ▸ ⟨hs.pend, hs.waiting⟩
  | late h => exact h ▸ ⟨hs.pend, hs.waiting⟩
  | reset h => exact h ▸ .of_idle rfl rfl

/-! ## The receive buffer stays within its capacity (R30, R177) -/

theorem WithinCap.of_length_le {p : Params} {b c : Bytes} (h : WithinCap p b) (hlen : c.length ≤ b.length) :
    WithinCap p c :=
  fun cap hcap => hlen.trans (h cap hcap)

/-- What leaves the front of a buffer makes it no longer. -/
theorem BufferChange.length_le {c : Bytes} {ps : List Bytes} {s t : State} (h : BufferChange c ps s t) :
    t.rxbuf.length ≤ (s.rxbuf ++ c).length := by
  rw [h.buffer, List.length_append]
  omega

/-- Without a chunk the buffer does not grow. -/
theorem BufferStep.length_le {s t : State} (h : BufferStep [] s t) : t.rxbuf.length ≤ s.rxbuf.length := by
  obtain ⟨c, ps, hchange, -, hchunk⟩ := h
  obtain rfl : c = [] := hchunk.elim id id
  simpa using hchange.length_le

theorem takeChunk_withinCap {k : Pend} {c : Bytes} {s t : State} (hs : WithinCap s.params s.rxbuf)
    (h : takeChunk k c s = .next t) : WithinCap s.params t.rxbuf := by
  obtain ⟨-, rfl⟩ | ⟨hfits, -, rfl⟩ | ⟨hfits, i, hfind, hfetch⟩ := takeChunk_next h
  · exact hs
  · exact (overflows_eq_false_iff_withinCap _ _ _).mp hfits
  · have happended := (overflows_eq_false_iff_withinCap _ _ _).mp hfits
    exact happended.of_length_le (by simpa using (finishFetch_bufferChange hfind hfetch).length_le)

theorem answerStep_withinCap {a : ReadAnswer} {s t : State} (hs : WithinCap s.params s.rxbuf)
    (h : answerStep a s = .next t) : WithinCap s.params t.rxbuf := by
  obtain ⟨-, rfl⟩ | ⟨c, -, -, hchunk⟩ := answerStep_next h
  · exact hs
  · exact takeChunk_withinCap (s := chunkAnswered c s.inputs s) hs hchunk

theorem step_withinCap {s t : State} (hs : WithinCap s.params s.rxbuf) (h : step s = .next t) :
    WithinCap t.params t.rxbuf := by
  rw [step_params h]
  obtain ⟨-, rfl⟩ | ⟨e, rest, -, hevent⟩ := step_next h
  · exact hs
  · obtain ⟨tx, -, hcommand⟩ | ⟨a, -, -, hanswer⟩ | ⟨a, -, -, rfl⟩ | ⟨a, -, rfl⟩ | ⟨-, rfl⟩ := hevent
    · exact hs.of_length_le (issueCommand_bufferStep [] hcommand).length_le
    · exact answerStep_withinCap (s := { s with inputs := rest }) hs hanswer
    · exact hs
    · exact hs
    · exact hs.of_length_le (Nat.zero_le _)

/-! ## The packets taken (R26, R171) -/

theorem step_packets {s t : State} (hs : ∀ p ∈ s.taken, NoDelimiter p) (h : step s = .next t) :
    ∀ p ∈ t.taken, NoDelimiter p := by
  by_cases hreset : ∃ rest, s.inputs = .reset :: rest
  · obtain ⟨-, -, htaken⟩ := (receiveBufferChanges s t h).1 hreset
    simp [htaken]
  · obtain ⟨c, ps, hchange, -, -⟩ := step_bufferStep hreset h
    intro p hp
    rw [hchange.taken] at hp
    exact (List.mem_append.mp hp).elim (hs p) (hchange.packets p)

/-! ## The obligations -/

/-- Settles O51: the control state, the capacity, OVF, the conserved bytes and the packets are each kept by every step. -/
theorem stepKeepsTheInvariant : Obligations.StepKeepsTheInvariant := by
  intro s t hs h
  have hparams := step_params h
  have hcontrol := step_controlInv ⟨hs.pend, hs.waiting⟩ h
  exact {
    params := hparams ▸ hs.params
    pend := hcontrol.pend
    waiting := hcontrol.waiting
    cap := step_withinCap hs.cap h
    ovf := fun hinf =>
      have hinf : s.params.rxCap = none := hparams ▸ hinf
      Reassembler.receiveOverflow.2.2 s t h hinf (hs.ovf hinf)
    conserved := step_conserved hs.conserved h
    packets := step_packets hs.packets h }

/-- Settles O50: every element has its reset value, and the history is empty. -/
theorem invariantAtReset : Obligations.InvariantAtReset where
  params := by simp [State.reset, Params.default, Params.wellFormed, Config.readMax]
  pend := by simp [State.reset]
  waiting := nofun
  cap := nofun
  ovf := fun _ => rfl
  conserved := rfl
  packets := nofun

/-- Settles O44: each way a step can end keeps the build. -/
theorem buildParametersAreFixed : Obligations.BuildParametersAreFixed :=
  fun _ _ => step_params

/-- Settles O45: of the ways a step in `IDLE` can end, only the fetch leaves it in `FETCH_WAIT`. -/
theorem fetchWaitIsEnteredOnlyByAFetch : Obligations.FetchWaitIsEnteredOnlyByAFetch := by
  intro s t h hidle hwait
  have hchanged : s.phase ≠ t.phase := by simp [hidle, hwait]
  have hleft : t.phase ≠ .idle := by simp [hwait]
  have heffect := step_effect h
  generalize s.inputs = events at heffect
  cases heffect with
  | rests h => exact absurd (by rw [h]) hchanged
  | completed h => exact absurd h.phase hleft
  | @fetches tx rest i hdecode h =>
    obtain ⟨k, hk, hbuffer, rfl⟩ := h
    refine ⟨tx, rest, rfl, hbuffer, rfl, rfl, rfl, ?_⟩
    cases k with
    | none => cases hk
    | extract => exact .inl ⟨hdecode.trans (congrArg _ (Option.some.inj hk).symm), rfl⟩
    | readFrame => exact .inr ⟨hdecode.trans (congrArg _ (Option.some.inj hk).symm), rfl⟩
  | answered _ h => exact absurd h.phase hleft
  | unawaited _ h => exact absurd (by rw [h]) hchanged
  | late h => exact absurd (by rw [h]) hchanged
  | reset h => exact absurd (by rw [h, resetEngine_phase]) hleft

/-- Settles O49: a command or an awaited answer completes once, a fetch reads once, and every other event shows nothing. -/
theorem oneCompletionPerCommand : Obligations.OneCompletionPerCommand := by
  intro s t h
  have heffect := step_effect h
  generalize s.inputs = events at heffect
  cases heffect with
  | rests h => exact ⟨[], by simp [h], rfl⟩
  | completed h =>
    obtain ⟨os, hos, hone, hread⟩ := h.shown
    exact ⟨os, hos, .inl ⟨hone, hread, h.phase, h.pend⟩⟩
  | fetches _ h =>
    obtain ⟨k, hk, -, rfl⟩ := h
    exact ⟨[.readIssued s.params.readMax], rfl, .inr ⟨rfl, rfl, rfl, pend_ne_none_of_pendCommand hk⟩⟩
  | answered hphase h =>
    obtain ⟨os, hos, hone, hread⟩ := h.shown
    exact ⟨os, hos, by simpa only [if_pos hphase] using ⟨hone, hread, h.phase, h.pend⟩⟩
  | unawaited hphase h => exact ⟨[], by simp [h], by simp [hphase]⟩
  | late h => exact ⟨[], by simp [h], rfl⟩
  | reset h => exact ⟨[], by simp [h], rfl⟩

end Sys2Proof.Safety

namespace Sys2Proof.Machine

/-! ## When a step answers a next state (R64, R235) -/

/-- A buffer that holds a delimiter has a first one, and a packet before it. -/
theorem exists_packet {b : Bytes} (h : delimiter ∈ b) : ∃ p rest, b = p ++ delimiter :: rest ∧ delimiter ∉ p :=
  List.eq_append_cons_of_mem h

/-- No command stops the machine in `IDLE`. -/
theorem exec_idle_next (i : Instr) {s : State} (h : s.phase = .idle) : ∃ t, exec i s = .next t := by
  cases i with
  | crc32 din => exact ⟨_, exec_crc32_idle din h⟩
  | encode type din =>
    cases hp : payloadTooLong din with
    | true => exact ⟨_, exec_encode_idle_tooLong type h hp⟩
    | false => exact ⟨_, exec_encode_idle_fits type h hp⟩
  | decode din =>
    cases hd : decodeFrame din with
    | error k => exact ⟨_, exec_decode_idle_error h hd⟩
    | ok f => exact ⟨_, exec_decode_idle_ok h hd⟩
  | send type din =>
    cases hp : payloadTooLong din with
    | true => exact ⟨_, exec_send_idle_tooLong type h hp⟩
    | false =>
      cases hdraw : nextWriteDraw s with
      | wok => exact ⟨_, exec_send_idle_wok type h hp hdraw⟩
      | werr k => exact ⟨_, exec_send_idle_werr type h hp hdraw⟩
  | extract fetch =>
    by_cases hs : delimiter ∈ s.rxbuf
    · obtain ⟨p, rest, hsplit, hp⟩ := exists_packet hs
      exact ⟨_, exec_extract_packet fetch h hp hsplit⟩
    · cases fetch with
      | true => exact ⟨_, exec_extract_fetch h hs⟩
      | false => exact ⟨_, exec_extract_noPacket h hs⟩
  | readFrame =>
    by_cases hs : delimiter ∈ s.rxbuf
    · obtain ⟨p, rest, hsplit, hp⟩ := exists_packet hs
      exact ⟨_, exec_readFrame_packet h hp hsplit⟩
    · exact ⟨_, exec_readFrame_noPacket h hs⟩

theorem step_command_idle_next {s : State} {tx : Transaction} {rest : List Event} (hphase : s.phase = .idle)
    (hinputs : s.inputs = .command tx :: rest) : ∃ t, step s = .next t := by
  by_cases hlegal : legal s.params tx = true
  · obtain ⟨i, hdecode⟩ := (legal_iff_decode s.params tx).mp hlegal
    rw [step_command_decoded hphase hinputs hdecode]
    exact exec_idle_next i (s := { s with inputs := rest }) hphase
  · exact ⟨_, step_command_illegal hphase hinputs hlegal⟩

/-- With a command in `PEND` every chunk has its outcome. -/
theorem takeChunk_next_of_pend {k : Pend} (hk : k ≠ .none) (c : Bytes) (s : State) :
    ∃ t, takeChunk k c s = .next t := by
  cases hover : overflows s.params s.rxbuf.length c.length with
  | true => exact ⟨_, takeChunk_overflow k hover⟩
  | false =>
    by_cases hs : delimiter ∈ s.rxbuf ++ c
    · obtain ⟨p, tail, hsplit, hp⟩ := exists_packet hs
      cases k with
      | none => exact absurd rfl hk
      | extract => exact ⟨_, takeChunk_extract_packet hover hsplit hp⟩
      | readFrame => exact ⟨_, takeChunk_readFrame_packet hover hsplit hp⟩
    · exact ⟨_, takeChunk_noPacket k hover hs⟩

/-- No answer of the transport stops the machine; a longer chunk is none (R64). -/
theorem step_chunk_next_iff {s : State} {c : Bytes} {rest : List Event} (hphase : s.phase = .fetchWait)
    (hpend : s.pend ≠ .none) (hinputs : s.inputs = .answer (.chunk c) :: rest) :
    (∃ t, step s = .next t) ↔ c.length ≤ s.params.readMax := by
  constructor
  · rintro ⟨t, h⟩
    rw [step_answer hphase hinputs] at h
    obtain ⟨hioerr, -⟩ | ⟨c', hc, hlen, -⟩ := answerStep_next h
    · cases hioerr
    · cases hc
      exact hlen
  · intro hlen
    rw [step_chunk hphase hinputs hlen]
    exact takeChunk_next_of_pend hpend c _

theorem step_answer_idle {s : State} {a : ReadAnswer} {rest : List Event} (hphase : s.phase = .idle)
    (hinputs : s.inputs = .answer a :: rest) : step s = .next { s with inputs := rest } := by
  rw [step_event hinputs]
  simp [deliver, deliverAnswer, hphase]

theorem step_lateAnswer {s : State} {a : ReadAnswer} {rest : List Event} (hinputs : s.inputs = .lateAnswer a :: rest) :
    step s = .next { s with inputs := rest } :=
  step_event hinputs

end Sys2Proof.Machine

namespace Sys2Proof.Safety

open Sys2Proof.Machine

theorem steps_succ_of_step (k : Nat) {s t : State} (h : step s = .next t) : steps (k + 1) s = steps k t := by
  rw [steps, h]

/-- The next event has left the contract: a command in `FETCH_WAIT` (R235), or an answer the transport cannot give (R64). -/
def OutsideContract (s : State) : Prop :=
  s.phase = .fetchWait ∧ ∃ e rest, s.inputs = e :: rest ∧
    ((∃ tx, e = .command tx) ∨ ∃ c, e = .answer (.chunk c) ∧ s.params.readMax < c.length)

theorem not_outsideContract_of_idle {s : State} (h : s.phase = .idle) : ¬OutsideContract s :=
  fun ⟨hwait, _⟩ => nomatch h.symm.trans hwait

/-- In `FETCH_WAIT` the next event says whether the run has left the contract. -/
theorem outsideContract_iff {s : State} {e : Event} {rest : List Event} (hphase : s.phase = .fetchWait)
    (hinputs : s.inputs = e :: rest) :
    OutsideContract s ↔ (∃ tx, e = .command tx) ∨ ∃ c, e = .answer (.chunk c) ∧ s.params.readMax < c.length := by
  simp [OutsideContract, hphase, hinputs]

/-! ## The obligations -/

/-- Settles O13: in `IDLE` every event has an outcome; in `FETCH_WAIT` the invariant says that `PEND` names a command, so only a
command and an oversized chunk have none. -/
theorem stepStopsOnlyOutsideTheContract : Obligations.StepStopsOnlyOutsideTheContract := by
  intro s hinv
  change (∃ t, step s = .next t) ↔ ¬OutsideContract s
  cases hinputs : s.inputs with
  | nil => exact iff_of_true ⟨s, step_no_input hinputs⟩ (by simp [OutsideContract, hinputs])
  | cons e rest =>
    cases hphase : s.phase with
    | idle =>
      refine iff_of_true ?_ (not_outsideContract_of_idle hphase)
      cases e with
      | command tx => exact step_command_idle_next hphase hinputs
      | answer a => exact ⟨_, step_answer_idle hphase hinputs⟩
      | lateAnswer a => exact ⟨_, step_lateAnswer hinputs⟩
      | reset => exact ⟨_, step_reset hinputs⟩
    | fetchWait =>
      have hpend : s.pend ≠ .none := fun hnone => nomatch (hinv.pend.mp hnone).symm.trans hphase
      rw [outsideContract_iff hphase hinputs]
      cases e with
      | command tx => simp [step_command_fetchWait hphase hinputs]
      | answer a =>
        cases a with
        | chunk c => simp [step_chunk_next_iff hphase hpend hinputs]
        | ioerr => simp [step_ioerr hphase hinputs]
      | lateAnswer a => simp [step_lateAnswer hinputs]
      | reset => simp [step_reset hinputs]

/-- Settles O10: the reset leaves `IDLE`, where either form of the late answer is discarded. -/
theorem abandonedReadIsDiscarded : Obligations.AbandonedReadIsDiscarded := by
  refine ⟨fun s a rest _ hinputs => ?_, fun s a rest hinputs => step_lateAnswer hinputs⟩
  obtain hlate | hanswer := hinputs
  · exact ⟨_, (steps_two (step_reset hlate)).trans (step_lateAnswer rfl), rfl, rfl, rfl⟩
  · exact ⟨_, (steps_two (step_reset hanswer)).trans (step_answer_idle rfl rfl), rfl, rfl, rfl⟩

/-- Settles O11: by induction on the steps, each of which uses up a late answer or finds no event. -/
theorem unansweredReadWaitsForever : Obligations.UnansweredReadWaitsForever := by
  intro k s hphase hlate
  induction k generalizing s with
  | zero => rfl
  | succ k ih =>
    cases hinputs : s.inputs with
    | nil =>
      have hrest := ih s hphase hlate
      rw [steps_succ_of_step k (step_no_input hinputs), hrest]
      simp [hinputs]
    | cons e rest =>
      rw [hinputs] at hlate
      obtain ⟨⟨a, rfl⟩, hlater⟩ := List.forall_mem_cons.mp hlate
      exact (steps_succ_of_step k (step_lateAnswer hinputs)).trans (ih { s with inputs := rest } hphase hlater)

end Sys2Proof.Safety

namespace Sys2Proof.Machine

/-! ## A zero-free run in the loop of R122 -/

/-- The bytes of a run join the open block as long as there is room. -/
theorem cobsFrom_run {run : Bytes} {block : Bytes} (z : Bool) (x : Bytes) (hrun : delimiter ∉ run)
    (hlen : block.length + run.length ≤ 253) : cobsFrom block z (run ++ x) = cobsFrom (block ++ run) z x := by
  induction run generalizing block with
  | nil => simp
  | cons b run ih =>
    obtain ⟨hb, htail⟩ : ¬delimiter = b ∧ delimiter ∉ run := by simpa using hrun
    rw [List.length_cons] at hlen
    rw [List.cons_append, cobsFrom_more z _ (Ne.symm hb) (by omega), ih htail (by simp; omega), List.append_assoc,
      List.singleton_append]

/-- The byte that fills a block closes it. -/
theorem cobsFrom_fullRun {run : Bytes} (z : Bool) (x : Bytes) (hrun : delimiter ∉ run) (hlen : run.length = 254) :
    cobsFrom [] z (run ++ x) = 0xFF#8 :: (run ++ cobsFrom [] false x) := by
  have hne : run ≠ [] := List.ne_nil_of_length_pos (by omega)
  obtain ⟨front, b, rfl⟩ : ∃ front b, run = front ++ [b] := ⟨_, _, (List.dropLast_append_getLast hne).symm⟩
  obtain ⟨hfront, hb⟩ : delimiter ∉ front ∧ ¬delimiter = b := by simpa using hrun
  have hlen : front.length = 253 := by simpa using hlen
  rw [List.append_assoc, cobsFrom_run z _ hfront (by simp [hlen]), List.nil_append, List.singleton_append,
    cobsFrom_full z x (Ne.symm hb) hlen, List.append_assoc, List.singleton_append]

/-- `final_zero` matters only at the end of the input, right after a block. -/
theorem cobsFrom_finalZero {block x : Bytes} (h : block ≠ [] ∨ x ≠ []) : cobsFrom block false x = cobsFrom block true x := by
  induction x generalizing block with
  | nil =>
    have hblock : block.length ≠ 0 := by simpa using h
    rw [cobsFrom_end (.inl hblock), cobsFrom_end (.inl hblock)]
  | cons b x ih =>
    by_cases hb : b = delimiter
    · rw [hb, cobsFrom_zero, cobsFrom_zero]
    · by_cases hfull : block.length = 253
      · rw [cobsFrom_full _ x hb hfull, cobsFrom_full _ x hb hfull]
      · rw [cobsFrom_more _ x hb hfull, cobsFrom_more _ x hb hfull]
        exact ih (.inl (by simp))

/-! ## Half-words read and written back (R20) -/

/-- The converse of `rdLe16_le16_append`. -/
theorem le16_rdLe16 (a b : Byte) : le16 (rdLe16 [a, b] 0) = [a, b] := by
  have hlow : (rdLe16 [a, b] 0).extractLsb' 0 8 = a := by
    apply BitVec.eq_of_getLsbD_eq
    intro i hi
    simp [rdLe16, hi, show i < 16 by omega]
  have hhigh : (rdLe16 [a, b] 0).extractLsb' 8 8 = b := by
    apply BitVec.eq_of_getLsbD_eq
    intro i hi
    simp [rdLe16, hi, show 8 + i < 16 by omega]
  rw [le16, hlow, hhigh]

/-- A destuffed block with the layout of R85, whatever its fields hold. -/
def rawOf (type length : Half) (body : Bytes) (crc : Word) : Bytes := (le16 type ++ le16 length ++ body) ++ le32 crc

theorem exists_rawOf {r : Bytes} (h : 8 ≤ r.length) : ∃ type length body crc, r = rawOf type length body crc := by
  match r, h with
  | a :: b :: c :: d :: rest, h =>
    have htrailer : (rest.drop (rest.length - 4)).length = 4 := by
      simp only [List.length_cons] at h
      simp
      omega
    obtain ⟨e, f, i, j, hlast⟩ := List.length_eq_four.mp htrailer
    refine ⟨rdLe16 [a, b] 0, rdLe16 [c, d] 0, rest.take (rest.length - 4), rdLe32 [e, f, i, j] 0, ?_⟩
    rw [rawOf, le16_rdLe16, le16_rdLe16, le32_rdLe32, ← hlast]
    simp

section

variable (type length : Half) (body : Bytes) (crc : Word)

theorem rawOf_length : (rawOf type length body crc).length = 8 + body.length := by
  simp [rawOf]
  omega

theorem rawOf_type : rdLe16 (rawOf type length body crc) 0 = type := by
  rw [rawOf, List.append_assoc, List.append_assoc, rdLe16_le16_append]

theorem rawOf_lengthField : rdLe16 (rawOf type length body crc) 2 = length := by
  rw [rawOf, List.append_assoc, List.append_assoc]
  exact (rdLe16_append (le16 type) _ 0).trans (rdLe16_le16_append length _)

theorem rawOf_body : ((rawOf type length body crc).drop 4).take body.length = body := by
  simp [rawOf, le16]

theorem rawOf_take : (rawOf type length body crc).take (4 + body.length) = le16 type ++ le16 length ++ body :=
  List.take_left' (by simp; omega)

theorem rawOf_crc : rdLe32 (rawOf type length body crc) (4 + body.length) = crc := by
  have hpos : 4 + body.length = (le16 type ++ le16 length ++ body).length + 0 := by
    simp
    omega
  rw [rawOf, hpos, rdLe32_append, rdLe32_le32]

end

/-- A block that passes the checks is the raw block of the frame it yields (R145, R148). -/
theorem raw_eq_of_checkRaw_ok {r : Bytes} {f : Frame} (h : checkRaw r = .ok f) : f.wellFormed = true ∧ raw f = r := by
  obtain ⟨hlen, hcrc, hfield, rfl⟩ := checkRaw_ok h
  obtain ⟨type, length, body, crc, rfl⟩ := exists_rawOf hlen
  have hbody : 8 + body.length - 8 = body.length := by omega
  have hcut : 8 + body.length - 4 = 4 + body.length := by omega
  rw [rawOf_length, hcut, rawOf_take, rawOf_crc] at hcrc
  rw [rawOf_length, rawOf_lengthField, hbody] at hfield
  rw [rawOf_length, hbody, rawOf_type, rawOf_body]
  have hlength : BitVec.ofNat 16 body.length = length := by rw [← hfield, BitVec.ofNat_toNat, BitVec.setWidth_eq]
  refine ⟨decide_eq_true ?_, ?_⟩
  · have hlt := length.isLt
    simp only [Config.maxPayload]
    omega
  · rw [raw, hdr, hlength, hcrc, rawOf]

/-! ## The CRC bit by bit (R101, R108) -/

/-- One bit of the message enters at the low end of the register, and the loop of R101 turns once. -/
def crcShiftIn (s : Word) (b : Bool) : Word := crcBit (s ^^^ (BitVec.ofBool b).zeroExtend 32)

/-- The bits of a byte, bit 0 first. -/
def byteBits (b : Byte) : List Bool := (List.range 8).map b.getLsbD

/-- The bits of a message in the order in which the engine takes them (R108). -/
def messageBits (m : Bytes) : List Bool := m.flatMap byteBits

/-- At most 32 bits as a word, first bit lowest. -/
def bitsWord (bits : List Bool) : Word := (BitVec.ofBoolListLE bits).zeroExtend 32

theorem getLsbD_bitsWord {bits : List Bool} {i : Nat} (hi : i < 32) : (bitsWord bits).getLsbD i = bits.getD i false := by
  simp [bitsWord, hi]

theorem bitsWord_nil : bitsWord [] = 0 := rfl

theorem bitsWord_injective {bits bits' : List Bool} (hlen : bits.length = bits'.length) (h32 : bits.length ≤ 32)
    (h : bitsWord bits = bitsWord bits') : bits = bits' := by
  apply List.ext_getElem hlen
  intro i hi hi'
  have hbit := congrArg (·.getLsbD i) h
  simp only [getLsbD_bitsWord (Nat.lt_of_lt_of_le hi h32)] at hbit
  rwa [List.getD_eq_getElem _ _ hi, List.getD_eq_getElem _ _ hi'] at hbit

theorem bitsWord_cons (b : Bool) (bits : List Bool) :
    bitsWord (b :: bits) = (BitVec.ofBool b).zeroExtend 32 ^^^ bitsWord bits <<< 1 := by
  apply BitVec.eq_of_getLsbD_eq
  intro i hi
  rw [getLsbD_bitsWord hi, BitVec.getLsbD_xor]
  cases i with
  | zero => simp
  | succ i =>
    have hi' : i < 32 := by omega
    have hbit := getLsbD_bitsWord (bits := bits) hi'
    rw [BitVec.getLsbD_eq_getElem hi'] at hbit
    simp [hi, hbit]

/-- A word with a clear top bit, one place up, is shifted back by a turn of the loop. -/
theorem crcBit_shiftLeft_one {w : Word} (h : w.getLsbD 31 = false) : crcBit (w <<< 1) = w := by
  rw [crcBit_of_bit0_clear (by simp)]
  apply BitVec.eq_of_getLsbD_eq
  intro i hi
  by_cases htop : i = 31
  · simpa [htop] using h.symm
  · have hbelow : 1 + i < 32 := by omega
    simp [hbelow, BitVec.getLsbD_eq_getElem hi]

/-- Up to 32 bits shifted in one by one do what they do entered all at once before the turns. -/
theorem foldl_crcShiftIn {bits : List Bool} (h : bits.length ≤ 32) (s : Word) :
    bits.foldl crcShiftIn s = crcBits bits.length (s ^^^ bitsWord bits) := by
  induction bits generalizing s with
  | nil => rw [bitsWord_nil]; exact BitVec.xor_zero.symm
  | cons b bits ih =>
    rw [List.length_cons] at h
    have htop : (bitsWord bits).getLsbD 31 = false := by
      rw [getLsbD_bitsWord (by omega), List.getD_eq_default _ _ (by omega)]
    have hturn : crcBit (s ^^^ bitsWord (b :: bits)) = crcShiftIn s b ^^^ bitsWord bits := by
      rw [bitsWord_cons, ← BitVec.xor_assoc, crcBit_xor, crcBit_shiftLeft_one htop, crcShiftIn]
    rw [List.foldl_cons, ih (by omega), List.length_cons, crcBits_succ, hturn]

theorem crcShiftIn_injective (b : Bool) : Function.Injective (crcShiftIn · b) := by
  intro s t h
  exact (BitVec.xor_left_inj _).mp (crcBits_injective 1 h)

theorem foldl_crcShiftIn_injective (bits : List Bool) : Function.Injective (bits.foldl crcShiftIn ·) := by
  intro s t h
  induction bits generalizing s t with
  | nil => exact h
  | cons b bits ih => exact crcShiftIn_injective b (ih h)

@[simp] theorem byteBits_length (b : Byte) : (byteBits b).length = 8 := by simp [byteBits]

theorem bitsWord_byteBits (b : Byte) : bitsWord (byteBits b) = b.zeroExtend 32 := by
  apply BitVec.eq_of_getLsbD_eq
  intro i hi
  by_cases h8 : i < 8
  · rw [getLsbD_bitsWord hi, List.getD_eq_getElem _ _ (by simpa using h8)]
    simp [byteBits, hi, BitVec.getLsbD_eq_getElem h8]
  · rw [getLsbD_bitsWord hi, List.getD_eq_default _ _ (by simpa using h8)]
    simp [BitVec.getLsbD_of_ge b i (by omega)]

/-- The engine takes a byte as its eight bits. -/
theorem foldl_byteBits (s : Word) (b : Byte) : (byteBits b).foldl crcShiftIn s = crcByte s b := by
  rw [foldl_crcShiftIn (by simp), byteBits_length, bitsWord_byteBits, crcByte]

theorem messageBits_cons (b : Byte) (m : Bytes) : messageBits (b :: m) = byteBits b ++ messageBits m :=
  List.flatMap_cons

theorem crcRun_eq_foldl (s : Word) (m : Bytes) : crcRun s m = (messageBits m).foldl crcShiftIn s := by
  induction m generalizing s with
  | nil => rfl
  | cons b m ih => rw [crcRun_cons, ih, messageBits_cons, List.foldl_append, foldl_byteBits]

theorem messageBits_length (m : Bytes) : (messageBits m).length = 8 * m.length := by
  simp [messageBits, List.length_flatMap, Nat.mul_comm]

/-- Bit `j` of byte `i` is bit `8 i + j` of the message. -/
theorem messageBits_getD (m : Bytes) (i : Nat) {j : Nat} (hj : j < 8) :
    (messageBits m).getD (8 * i + j) false = (m.getD i 0).getLsbD j := by
  induction m generalizing i with
  | nil => simp [messageBits]
  | cons b m ih =>
    rw [messageBits_cons]
    cases i with
    | zero =>
      rw [List.getD_append _ _ _ _ (by simpa using hj), List.getD_eq_getElem _ _ (by simpa using hj)]
      simp [byteBits, BitVec.getLsbD_eq_getElem hj]
    | succ i =>
      rw [List.getD_append_right _ _ _ _ (by simp; omega), byteBits_length,
        show 8 * (i + 1) + j - 8 = 8 * i + j by omega]
      exact ih i

theorem messageBits_injective : Function.Injective messageBits := by
  intro m m' h
  have hlen : m.length = m'.length := by
    have := congrArg List.length h
    rw [messageBits_length, messageBits_length] at this
    omega
  apply List.ext_getElem hlen
  intro i hi hi'
  rw [← List.getD_eq_getElem m 0 hi, ← List.getD_eq_getElem m' 0 hi']
  apply BitVec.eq_of_getLsbD_eq
  intro j hj
  rw [← messageBits_getD m i hj, ← messageBits_getD m' i hj, h]

/-- Two streams that agree outside of 32 bits and lead to one register are equal. -/
theorem eq_of_foldl_crcShiftIn {x y : List Bool} {k : Nat} {s : Word} (hlen : x.length = y.length)
    (hbefore : x.take k = y.take k) (hafter : x.drop (k + 32) = y.drop (k + 32))
    (h : x.foldl crcShiftIn s = y.foldl crcShiftIn s) : x = y := by
  have hsplit (z : List Bool) : z.take k ++ ((z.drop k).take 32 ++ z.drop (k + 32)) = z := by
    rw [← List.drop_drop, List.take_append_drop, List.take_append_drop]
  have hwindow : ((x.drop k).take 32).length = ((y.drop k).take 32).length := by simp [hlen]
  have h32 (z : List Bool) : ((z.drop k).take 32).length ≤ 32 := List.length_take_le _ _
  rw [← hsplit x, ← hsplit y, hbefore, hafter] at h
  simp only [List.foldl_append] at h
  have hreg := foldl_crcShiftIn_injective _ h
  rw [foldl_crcShiftIn (h32 x), foldl_crcShiftIn (h32 y), hwindow] at hreg
  have hword := (BitVec.xor_right_inj _).mp (crcBits_injective _ hreg)
  rw [← hsplit x, ← hsplit y, hbefore, hafter, bitsWord_injective hwindow (h32 x) hword]

end Sys2Proof.Machine

namespace Sys2Proof.Safety

open Sys2Proof.Machine

/-! ## The obligations -/

/-- Settles O21: the loop takes a run into the open block byte by byte, and closes the block at the run's end. -/
theorem cobsEncodingByBlocks : Obligations.CobsEncodingByBlocks := by
  refine ⟨fun run x hrun hlen => ?_, fun run hrun hlen => ?_, fun run x hrun hlen hx => ?_, fun run hrun hlen => ?_⟩
  · rw [cobsEncode, cobsFrom_run true _ hrun (by simpa using hlen), List.nil_append, cobsFrom_zero, cobsEncode]
  · have hblock := cobsFrom_run (block := []) true [] hrun (by simpa using hlen)
    rw [List.append_nil, List.nil_append] at hblock
    rw [cobsEncode, hblock, cobsFrom_end (.inr rfl)]
  · rw [cobsEncode, cobsFrom_fullRun true x hrun hlen, cobsFrom_finalZero (.inr hx), cobsEncode]
  · have hblock := cobsFrom_fullRun true [] hrun hlen
    rw [List.append_nil, cobsFrom_end_full, List.append_nil] at hblock
    exact hblock

/-- Settles O32: the checks fix header, body and trailer of the destuffed block. -/
theorem acceptedPacketIsTheRawBlockOfItsFrame : Obligations.AcceptedPacketIsTheRawBlockOfItsFrame := by
  intro p f h
  obtain ⟨r, hr, hcheck⟩ := decodeFrame_ok h
  obtain ⟨hf, hraw⟩ := raw_eq_of_checkRaw_ok hcheck
  exact ⟨hf, hraw ▸ hr⟩

/-- Settles O17: the window's 32 bits enter the register as one word, and nothing after that loses a difference. -/
theorem crcDetectsShortBursts : Obligations.CrcDetectsShortBursts := by
  intro m m' k hlen hne hburst hcrc
  have hrun : crcRun crcInit m = crcRun crcInit m' := (BitVec.xor_left_inj _).mp hcrc
  rw [crcRun_eq_foldl, crcRun_eq_foldl] at hrun
  have hbits : (messageBits m).length = (messageBits m').length := by rw [messageBits_length, messageBits_length, hlen]
  have hagree (n : Nat) (hn : n < k ∨ k + 32 ≤ n) : (messageBits m).getD n false = (messageBits m').getD n false := by
    have hj := Nat.mod_lt n (show 0 < 8 by decide)
    rw [← Nat.div_add_mod n 8, messageBits_getD m _ hj, messageBits_getD m' _ hj]
    by_contra hdiff
    have := hburst _ _ hj hdiff
    omega
  refine hne (messageBits_injective (eq_of_foldl_crcShiftIn (k := k) hbits ?_ ?_ hrun))
  · apply List.ext_getElem (by simp [hbits])
    intro n hn hn'
    rw [List.length_take] at hn hn'
    simpa [show n < (messageBits m).length by omega, show n < (messageBits m').length by omega] using
      hagree n (.inl (by omega))
  · apply List.ext_getElem (by simp [hbits])
    intro n hn hn'
    rw [List.length_drop] at hn hn'
    simpa [show k + 32 + n < (messageBits m).length by omega, show k + 32 + n < (messageBits m').length by omega] using
      hagree (k + 32 + n) (.inr (by omega))

end Sys2Proof.Safety

namespace Sys2Proof.Safety

open Sys2Proof.Machine

/-! ## Packets in a stream of wire frames (R62, R126) -/

/-- The first delimiter of a stream is at one place. -/
theorem packet_unique {p q x y : Bytes} (hp : delimiter ∉ p) (hq : delimiter ∉ q)
    (h : p ++ delimiter :: x = q ++ delimiter :: y) : p = q ∧ x = y := by
  have hfind : some p.length = some q.length := by rw [← find0_packet x hp, h, find0_packet y hq]
  obtain ⟨hpq, hxy⟩ := List.append_inj h (Option.some.inj hfind)
  exact ⟨hpq, List.tail_eq_of_cons_eq hxy⟩

theorem wireAll_cons (f : Frame) (fs : List Frame) :
    wireAll (f :: fs) = cobsEncode (raw f) ++ delimiter :: wireAll fs :=
  wire_append f (wireAll fs)

/-- Packets and what is left of a stream, when they come from the front of some frames' wire bytes: the packets are the first
frames' stuffed blocks, and what is left comes from the frames after those. -/
theorem delimited_of_wireAll {ps : List Bytes} {b tail : Bytes} {fs : List Frame} (hps : ∀ p ∈ ps, NoDelimiter p)
    (h : delimited ps ++ b ++ tail = wireAll fs) :
    ps.length ≤ fs.length ∧ ps = (fs.take ps.length).map (cobsEncode <| raw ·) ∧
      b ++ tail = wireAll (fs.drop ps.length) := by
  induction ps generalizing fs with
  | nil => exact ⟨Nat.zero_le _, rfl, h⟩
  | cons p ps ih =>
    obtain ⟨hp, hrest⟩ := List.forall_mem_cons.mp hps
    cases fs with
    | nil => simp [wireAll] at h
    | cons f fs =>
      rw [wireAll_cons, delimited_cons, List.append_assoc, List.append_assoc, List.cons_append] at h
      obtain ⟨hhead, htail⟩ := packet_unique hp (cobsEncode_noDelimiter _) h
      obtain ⟨hlen, hpackets, hleft⟩ := ih hrest ((List.append_assoc _ _ _).trans htail)
      refine ⟨Nat.succ_le_succ hlen, ?_, hleft⟩
      rw [List.length_cons, List.take_succ_cons, List.map_cons, ← hpackets, hhead]

/-- The packets of well-formed frames decode to them. -/
theorem map_decodeFrame_stuffed {fs : List Frame} (h : ∀ f ∈ fs, f.wellFormed = true) :
    (fs.map (cobsEncode <| raw ·)).map decodeFrame = fs.map .ok := by
  rw [List.map_map]
  exact List.map_congr_left fun f hf => decodeFrame_stuffed (h f hf)

/-- Wire bytes without a delimiter are of no frame. -/
theorem eq_nil_of_noDelimiter_wireAll {fs : List Frame} (h : delimiter ∉ wireAll fs) : fs = [] := by
  cases fs with
  | nil => rfl
  | cons f fs => simp [wireAll_cons] at h

/-! ## SEND and its write (R183) -/

theorem step_send_wok {s : State} {f : Frame} {rest : List Event} (hf : f.wellFormed = true)
    (hfits : Instr.wellFormed s.params (.send f.type f.data) = true) (hphase : s.phase = .idle)
    (hdraw : nextWriteDraw s = .wok) (hinputs : s.inputs = .command (encode (.send f.type f.data)) :: rest) :
    step s = .next { s with
      inputs := rest, phase := .idle, pend := .none, writeDraws := s.writeDraws.tail,
      trace := s.trace ++ [.write (wire f) .wok, .completion ⟨.ok, 0, []⟩] } :=
  (step_command_decoded hphase hinputs (decode_encode hfits)).trans
    ((sendCommand.1 f.type f.data { s with inputs := rest } hphase (of_decide_eq_true hf)).1 hdraw)

/-! ## The obligations -/

/-- Settles O53: by the conserved bytes (R190) the packets taken stand at the front of the stream, so they are the stuffed blocks
of its first frames; what is left in RXBUF then belongs to the frames after those. -/
theorem reassemblyInOrder : Obligations.ReassemblyInOrder := by
  constructor
  · intro s fs hinv hfs ⟨tail, htail⟩
    rw [hinv.conserved] at htail
    obtain ⟨hlen, hpackets, -⟩ := delimited_of_wireAll hinv.packets htail
    refine ⟨hlen, ?_⟩
    rw [← map_decodeFrame_stuffed fun f hf => hfs f (List.mem_of_mem_take hf), ← hpackets]
  · intro s fs hinv hfs hfed hnone
    rw [hinv.conserved] at hfed
    obtain ⟨-, hpackets, hleft⟩ := delimited_of_wireAll (tail := []) hinv.packets ((List.append_nil _).trans hfed)
    rw [List.append_nil] at hleft
    have hdrop : fs.drop s.taken.length = [] := eq_nil_of_noDelimiter_wireAll (hleft ▸ hnone)
    rw [List.take_of_length_le (List.drop_eq_nil_iff.mp hdrop)] at hpackets
    exact ⟨by rw [hpackets, map_decodeFrame_stuffed hfs], by rw [hleft, hdrop]; rfl⟩

/-- Settles O56: SEND leaves RXBUF empty, so READ_FRAME fetches, and the chunk is the wire frame. -/
theorem sendThenReadFrameReturnsTheFrame : Obligations.SendThenReadFrameReturnsTheFrame := by
  intro f s rest hf hfits hphase hrxbuf hdraw hlen hcap hinputs
  have hsend := step_send_wok hf hfits hphase hdraw hinputs
  obtain ⟨t, ht, hstep⟩ : ∃ t, t = _ ∧ step s = .next t := ⟨_, rfl, hsend⟩
  have hbuffer : t.rxbuf = [] := by rw [ht, hrxbuf]
  have hfetch := steps_fetch_frame (s := t) (c := wire f) (by rw [ht]) (by rw [ht]) (by simp [hbuffer])
    (by rwa [ht]) (by rwa [hbuffer, ht]) (by rw [hbuffer, List.nil_append, wire_eq])
    (cobsEncode_noDelimiter _) (decodeFrame_stuffed hf)
  exact ⟨_, (steps_succ_of_step 2 hstep).trans hfetch, rfl, rfl, by simp [ht]⟩

end Sys2Proof.Safety

namespace Sys2Proof.Machine

/-! ## What READ_FRAMES sees of a step (R186) -/

theorem newCompletion_of_trace {s t : State} {os : List Obs} (h : t.trace = s.trace ++ os) :
    newCompletion s t = firstCompletion os := by
  rw [newCompletion, h, List.drop_left]

/-- The loop reads the frame back from its completion: `(rv[15:0], d)` (R186). -/
theorem completionFrame_frame (st : Status) (f : Frame) : completionFrame ⟨st, f.type.zeroExtend 32, f.data⟩ = f := by
  have htype : (f.type.zeroExtend 32).extractLsb' 0 16 = f.type := by
    apply BitVec.eq_of_getLsbD_eq
    intro i hi
    simp [hi, show i < 32 by omega]
  rw [completionFrame, htype]

section

variable {r : ReadFrames} {m : State} {os : List Obs} (htrace : m.trace = r.machine.trace ++ os)

include htrace

theorem hostObserves_shown {c : Completion} (hc : firstCompletion os = some c) :
    hostObserves r (.next m) = .next (hostTakes c { r with machine := m }) :=
  hostObserves_completion ((newCompletion_of_trace htrace).trans hc)

/-- A frame is yielded. -/
theorem hostObserves_frame {f : Frame} (hc : firstCompletion os = some ⟨.ok, f.type.zeroExtend 32, f.data⟩) :
    hostObserves r (.next m) = .next { r with
      appetite := r.appetite.map (· - 1), yielded := r.yielded ++ [f],
      phase := if r.appetite = some 0 then .stopped .consumer else .checking, machine := m } := by
  rw [hostObserves_shown htrace hc, hostTakes, completionFrame_frame]

/-- ABSENT goes round. -/
theorem hostObserves_absent (hc : firstCompletion os = some ⟨.absent, 0, []⟩) :
    hostObserves r (.next m) = .next { r with phase := .checking, machine := m } :=
  hostObserves_shown htrace hc

/-- Without a completion the loop stands where the machine's phase says. -/
theorem hostObserves_silent (hc : firstCompletion os = none) :
    hostObserves r (.next m) = .next { r with phase := hostWaits r.machine m, machine := m } :=
  hostObserves_none ((newCompletion_of_trace htrace).trans hc)

end

theorem hostWaits_self (s : State) : hostWaits s s = .waiting := by
  cases h : s.phase with
  | idle => exact hostWaits_idle h
  | fetchWait => exact hostWaits_fetchWait h

/-! ## One step of the loop, case by case (R186) -/

theorem readFramesStep_timeout {r : ReadFrames} (hphase : r.phase = .checking) (hexpiry : r.expiry = some 0) :
    readFramesStep r = .next { r with phase := .stopped .timeout } := by
  simp [readFramesStep, hphase, hexpiry]

theorem readFramesStep_stopped {r : ReadFrames} {why : HostStop} (hphase : r.phase = .stopped why) :
    readFramesStep r = .next r := by
  simp [readFramesStep, hphase]

theorem readFramesStep_aborted {r : ReadFrames} {m : State} (hphase : r.phase = .aborted)
    (hstep : step r.machine = .next m) : readFramesStep r = .next { r with machine := m } := by
  simp [readFramesStep, hphase, hstep, hostIgnores]

theorem readFramesStep_waiting {r : ReadFrames} {m : State} (hphase : r.phase = .waiting)
    (hstep : step r.machine = .next m) : readFramesStep r = hostObserves r (.next m) := by
  simp [readFramesStep, hphase, hstep]

section

variable {r : ReadFrames} (hphase : r.phase = .checking) (hexpiry : r.expiry ≠ some 0)
  (hidle : r.machine.phase = .idle)

include hphase hexpiry hidle

/-- Before the deadline the loop issues READ_FRAME, ahead of the events still to come (log entry 19). -/
theorem readFramesStep_checking :
    readFramesStep r = hostObserves { r with expiry := r.expiry.map (· - 1) } (exec .readFrame r.machine) := by
  have hstep : step (present (encode .readFrame) r.machine) = exec .readFrame r.machine :=
    Safety.step_readCommand (s := present (encode .readFrame) r.machine) hidle rfl
  simp [readFramesStep, hphase, hexpiry, hstep]

/-- With no packet buffered the loop waits for a read. -/
theorem readFramesStep_fetches (hnone : delimiter ∉ r.machine.rxbuf) :
    readFramesStep r = .next { r with
      expiry := r.expiry.map (· - 1), phase := .waiting, machine := beginFetch .readFrame r.machine } := by
  rw [readFramesStep_checking hphase hexpiry hidle, exec_readFrame_noPacket hidle hnone,
    hostObserves_silent (os := [.readIssued _]) rfl rfl, hostWaits_fetchWait rfl]

variable {p rest : Bytes} (hp : delimiter ∉ p) (hsplit : r.machine.rxbuf = p ++ delimiter :: rest)

include hp hsplit

/-- A buffered frame is yielded. -/
theorem readFramesStep_buffered_frame {f : Frame} (hf : decodeFrame p = .ok f) :
    readFramesStep r = .next { r with
      expiry := r.expiry.map (· - 1), appetite := r.appetite.map (· - 1), yielded := r.yielded ++ [f],
      phase := if r.appetite = some 0 then .stopped .consumer else .checking,
      machine := complete .ok (typeRval f.type) f.data
        { r.machine with rxbuf := rest, taken := r.machine.taken ++ [p] } } := by
  rw [readFramesStep_checking hphase hexpiry hidle, exec_readFrame_packet hidle hp hsplit, finishReadFrame_ok _ hf,
    hostObserves_frame (os := [.completion _]) rfl rfl]

/-- A buffered packet that does not decode goes round. -/
theorem readFramesStep_buffered_dropped {k : ErrorKind} (hk : decodeFrame p = .error k) :
    readFramesStep r = .next { r with
      expiry := r.expiry.map (· - 1),
      machine := raise .absent { r.machine with rxbuf := rest, taken := r.machine.taken ++ [p] } } := by
  rw [readFramesStep_checking hphase hexpiry hidle, exec_readFrame_packet hidle hp hsplit, finishReadFrame_error _ hk,
    hostObserves_absent (os := [.completion _]) rfl rfl, ← hphase]

end

/-! ## Runs of the loop -/

theorem readFramesRun_of_step (k : Nat) {r r' : ReadFrames} (h : readFramesStep r = .next r') :
    readFramesRun (k + 1) r = readFramesRun k r' := by
  rw [readFramesRun, h]

theorem readFramesRun_one (r : ReadFrames) : readFramesRun 1 r = readFramesStep r := by
  simp only [readFramesRun]
  split
  case h_1 h => exact h.symm
  case h_2 h => exact h.symm
  case h_3 h => exact h.symm

end Sys2Proof.Machine

namespace Sys2Proof.Safety

open Sys2Proof.Machine

/-! ## A waiting READ_FRAME whose chunk arrives (R175, R186) -/

theorem not_withinCap {p : Params} {b c : Bytes} (h : ¬WithinCap p (b ++ c)) :
    ∃ cap, p.rxCap = some cap ∧ cap < b.length + c.length := by
  simpa [WithinCap] using h

section

variable {r : ReadFrames} {m : State} {c : Bytes} {rest : List Event} (hwait : r.phase = .waiting)
  (hphase : r.machine.phase = .fetchWait) (hinputs : r.machine.inputs = .answer (.chunk c) :: rest)
  (hlen : c.length ≤ r.machine.params.readMax) (hm : step r.machine = .next m)

include hwait hphase hinputs hlen hm

theorem readFramesStep_chunk_overflow (hover : ¬WithinCap r.machine.params (r.machine.rxbuf ++ c)) :
    readFramesStep r = .next { r with phase := .stopped (.error .rxOverflow), machine := m } := by
  obtain ⟨cap, hcap, hlong⟩ := not_withinCap hover
  obtain rfl := Host.Outcome.next.inj (hm.symm.trans (step_chunk_overflow hphase hinputs hlen hcap hlong))
  rw [readFramesStep_waiting hwait hm, hostObserves_shown (os := [.readAnswered _, .completion _]) rfl rfl]
  rfl

variable (hcap : WithinCap r.machine.params (r.machine.rxbuf ++ c))

include hcap

theorem readFramesStep_chunk_noPacket (hnone : delimiter ∉ r.machine.rxbuf ++ c) :
    readFramesStep r = .next { r with phase := .checking, machine := m } := by
  obtain rfl := Host.Outcome.next.inj (hm.symm.trans (step_chunk_noPacket hphase hinputs hlen hcap hnone))
  rw [readFramesStep_waiting hwait hm, hostObserves_absent (os := [.readAnswered _, .completion _]) rfl rfl]

variable {p tail : Bytes} (hpend : r.machine.pend = .readFrame)
  (hsplit : r.machine.rxbuf ++ c = p ++ delimiter :: tail) (hp : delimiter ∉ p)

include hpend hsplit hp

theorem readFramesStep_chunk_dropped {k : ErrorKind} (hk : decodeFrame p = .error k) :
    readFramesStep r = .next { r with phase := .checking, machine := m } := by
  obtain rfl := Host.Outcome.next.inj
    (hm.symm.trans (step_chunk_readFrame_error hphase hinputs hlen hcap hsplit hp hpend hk))
  rw [readFramesStep_waiting hwait hm, hostObserves_absent (os := [.readAnswered _, .completion _]) rfl rfl]

theorem readFramesStep_chunk_frame {f : Frame} (hf : decodeFrame p = .ok f) :
    readFramesStep r = .next { r with
      appetite := r.appetite.map (· - 1), yielded := r.yielded ++ [f],
      phase := if r.appetite = some 0 then .stopped .consumer else .checking, machine := m } := by
  obtain rfl := Host.Outcome.next.inj
    (hm.symm.trans (step_chunk_readFrame_ok hphase hinputs hlen hcap hsplit hp hpend hf))
  rw [readFramesStep_waiting hwait hm, hostObserves_frame (os := [.readAnswered _, .completion _]) rfl rfl]

end

/-- A READ_FRAME that reads and completes with ABSENT takes two steps of the loop and leaves it at its next check. -/
theorem readFramesRun_fetch_absent {r : ReadFrames} {m : State} {os : List Obs} (hphase : r.phase = .checking)
    (hexpiry : r.expiry ≠ some 0) (hidle : r.machine.phase = .idle) (hbuffer : delimiter ∉ r.machine.rxbuf)
    (hanswer : step (beginFetch .readFrame r.machine) = .next m)
    (htrace : m.trace = (beginFetch .readFrame r.machine).trace ++ os) (hos : firstCompletion os = some ⟨.absent, 0, []⟩)
    (k : Nat) :
    readFramesRun (k + 2) r = readFramesRun k { r with expiry := r.expiry.map (· - 1), machine := m } := by
  rw [readFramesRun_of_step (k + 1) (readFramesStep_fetches hphase hexpiry hidle hbuffer)]
  apply readFramesRun_of_step
  rw [readFramesStep_waiting rfl hanswer, hostObserves_absent htrace hos, ← hphase]

/-! ## A silent link (R196) -/

/-- Before a check of READ_FRAMES: the next `n` checks are before the deadline, no packet is buffered, and the next `n` reads
bring nothing. -/
structure SilentLink (n : Nat) (rest : List Event) (r : ReadFrames) : Prop where
  phase : r.phase = .checking
  expiry : r.expiry = some n
  idle : r.machine.phase = .idle
  buffer : delimiter ∉ r.machine.rxbuf
  cap : WithinCap r.machine.params r.machine.rxbuf
  inputs : r.machine.inputs = List.replicate n (.answer (.chunk [])) ++ rest

/-- One round: READ_FRAME reads, gets nothing, and completes with ABSENT. -/
theorem SilentLink.round {n : Nat} {rest : List Event} {r : ReadFrames} (h : SilentLink (n + 1) rest r) :
    ∃ r', (∀ k, readFramesRun (k + 2) r = readFramesRun k r') ∧ SilentLink n rest r' ∧ r'.yielded = r.yielded ∧
      r'.machine.rxbuf = r.machine.rxbuf ∧
      r'.machine.trace = r.machine.trace ++
        [.readIssued r.machine.params.readMax, .readAnswered (.chunk []), .completion ⟨.absent, 0, []⟩] := by
  obtain ⟨hphase, hexpiry, hidle, hbuffer, hcap, hinputs⟩ := h
  rw [List.replicate_succ, List.cons_append] at hinputs
  have hanswer := step_chunk_noPacket (s := beginFetch .readFrame r.machine) rfl hinputs (Nat.zero_le _)
    (by simpa using hcap) (by simpa using hbuffer)
  refine ⟨_, readFramesRun_fetch_absent (os := [.readAnswered _, .completion _]) hphase (by simp [hexpiry]) hidle hbuffer
    hanswer rfl rfl, ?_, rfl, by simp, by simp⟩
  exact {
    phase := hphase
    expiry := by simp [hexpiry]
    idle := rfl
    buffer := by simpa using hbuffer
    cap := by simpa using hcap
    inputs := rfl }

/-- `n` rounds and the check that is past the deadline. -/
theorem SilentLink.run {n : Nat} {rest : List Event} {r : ReadFrames} (h : SilentLink n rest r) :
    ∃ r' os, readFramesRun (2 * n + 1) r = .next r' ∧ r'.yielded = r.yielded ∧ r'.phase = .stopped .timeout ∧
      r'.machine.rxbuf = r.machine.rxbuf ∧ r'.machine.inputs = rest ∧
      r'.machine.trace = r.machine.trace ++ os ∧ readsIssued os = n := by
  induction n generalizing r with
  | zero =>
    exact ⟨_, [], (readFramesRun_one r).trans (readFramesStep_timeout h.phase h.expiry), rfl, rfl, rfl, h.inputs,
      (List.append_nil _).symm, rfl⟩
  | succ n ih =>
    obtain ⟨r', hrun, hsilent, hyielded, hrxbuf, htrace⟩ := h.round
    obtain ⟨r'', os, hrun', hyielded', hphase, hrxbuf', hinputs, htrace', hreads⟩ := ih hsilent
    refine ⟨r'', _, (hrun (2 * n + 1)).trans hrun', hyielded'.trans hyielded, hphase, hrxbuf'.trans hrxbuf, hinputs,
      by rw [htrace', htrace, List.append_assoc], ?_⟩
    rw [readsIssued_append, hreads, Nat.add_comm]
    rfl

/-! ## The obligations -/

/-- Settles O57: each clause is one case of the loop's step, at its check, while its READ_FRAME waits, or after it. -/
theorem readFramesLoop : Obligations.ReadFramesLoop := by
  refine ⟨fun r => readFramesStep_timeout, ?bufferedFrame, ?bufferedDropped, ?fetches, ?ioerr, ?chunk, ?unanswered,
    ?late, ?reset, fun r m => readFramesStep_aborted, fun r why => readFramesStep_stopped⟩
  case bufferedFrame =>
    intro r p rest f hphase hexpiry hidle hp hsplit hf
    exact ⟨_, (exec_readFrame_packet hidle hp hsplit).trans (congrArg _ (finishReadFrame_ok _ hf)),
      readFramesStep_buffered_frame hphase hexpiry hidle hp hsplit hf⟩
  case bufferedDropped =>
    intro r p rest k hphase hexpiry hidle hp hsplit hk
    exact ⟨_, (exec_readFrame_packet hidle hp hsplit).trans (congrArg _ (finishReadFrame_error _ hk)),
      readFramesStep_buffered_dropped hphase hexpiry hidle hp hsplit hk⟩
  case fetches =>
    intro r hphase hexpiry hidle hnone
    exact ⟨_, exec_readFrame_noPacket hidle hnone, readFramesStep_fetches hphase hexpiry hidle hnone⟩
  case ioerr =>
    intro r rest hwait hphase hinputs
    have hstep := step_ioerr hphase hinputs
    refine ⟨_, hstep, ?_⟩
    rw [readFramesStep_waiting hwait hstep, hostObserves_shown (os := [.readAnswered _, .completion _]) rfl rfl]
    rfl
  case chunk =>
    intro r c rest hwait hphase hpend hinputs hlen
    obtain ⟨m, hm⟩ := (step_chunk_next_iff hphase (by simp [hpend]) hinputs).mpr hlen
    refine ⟨m, hm, readFramesStep_chunk_overflow hwait hphase hinputs hlen hm, fun hcap => ⟨?_, ?_⟩⟩
    · exact readFramesStep_chunk_noPacket hwait hphase hinputs hlen hm hcap
    · intro p tail hsplit hp
      refine ⟨fun k => ?_, fun f => ?_⟩
      · exact readFramesStep_chunk_dropped hwait hphase hinputs hlen hm hcap hpend hsplit hp
      · exact readFramesStep_chunk_frame hwait hphase hinputs hlen hm hcap hpend hsplit hp
  case unanswered =>
    intro r hwait hinputs
    rw [readFramesStep_waiting hwait (step_no_input hinputs), hostObserves_silent (os := []) (by simp) rfl,
      hostWaits_self, ← hwait]
  case late =>
    intro r a rest hwait hphase hinputs
    rw [readFramesStep_waiting hwait (step_lateAnswer hinputs), hostObserves_silent (os := []) (by simp) rfl,
      hostWaits_fetchWait (after := { r.machine with inputs := rest }) hphase, ← hwait]
  case reset =>
    intro r rest hwait hphase hinputs
    refine ⟨_, step_reset hinputs, ?_⟩
    rw [readFramesStep_waiting hwait (step_reset hinputs), hostObserves_silent (os := []) (by simp) rfl,
      hostWaits_aborted hphase rfl]

/-- Settles O59: `n` rounds of the loop, by induction, and its deadline. -/
theorem silentLinkTimesOut : Obligations.SilentLinkTimesOut :=
  fun _ _ _ _ hidle hbuffer hcap hinputs => SilentLink.run
    { phase := rfl, expiry := rfl, idle := hidle, buffer := hbuffer, cap := hcap, inputs := hinputs }

/-- Settles O58: the first READ_FRAME fetches the chunk and drops the bad packet, the second finds the frame buffered, and from
then on the link is silent. -/
theorem corruptFrameResilience : Obligations.CorruptFrameResilience := by
  intro n bad f m hbad hcrc hf hidle hrxbuf hlen hcap hinputs
  have hsplit : m.rxbuf ++ (bad ++ delimiter :: wire f) = bad ++ delimiter :: wire f := by rw [hrxbuf, List.nil_append]
  obtain ⟨u, hu, hdropped⟩ : ∃ u, u = _ ∧ step (beginFetch .readFrame m) = .next u := ⟨_, rfl,
    step_chunk_readFrame_error rfl hinputs hlen (by rwa [beginFetch_rxbuf, hsplit]) hsplit hbad rfl hcrc⟩
  have hfetch : readFramesRun (2 * n + 4) (readFramesOn (some (n + 2)) none m) =
      readFramesRun (2 * n + 2) (readFramesOn (some (n + 1)) none u) :=
    readFramesRun_fetch_absent (os := [.readAnswered _, .completion _]) rfl (by simp [readFramesOn]) hidle
      (by simp [readFramesOn, hrxbuf]) hdropped (by rw [hu]; rfl) rfl _
  obtain ⟨r, hr, hframe⟩ : ∃ r, r = _ ∧ readFramesStep (readFramesOn (some (n + 1)) none u) = .next r := ⟨_, rfl,
    readFramesStep_buffered_frame rfl (by simp [readFramesOn]) (by rw [hu]; rfl) (cobsEncode_noDelimiter _)
      (by rw [hu]; exact wire_eq f) (decodeFrame_stuffed hf)⟩
  have hsilent : SilentLink n [] r := by
    rw [hr]
    exact {
      phase := rfl
      expiry := rfl
      idle := rfl
      buffer := List.not_mem_nil
      cap := fun _ _ => Nat.zero_le _
      inputs := by rw [hu, List.append_nil]; rfl }
  obtain ⟨r', -, hrun, hyielded, hstopped, hempty, -⟩ := hsilent.run
  refine ⟨r', hfetch.trans ((readFramesRun_of_step _ hframe).trans hrun), ?_, hstopped, ?_⟩
  · rw [hyielded, hr]
    rfl
  · rw [hempty, hr]
    rfl

end Sys2Proof.Safety
